-- ==== Sys2Proof/Word.lean ====
section
/-! DEFINITION. The words of IDEC and its plainest types: bytes, 16-bit words, 3-bit fields, operand widths
(00_scope.md R6, R5). -/

namespace Sys2Proof

/-- A byte of the stream: "an 8-bit unsigned value, 0 to 255" (R6). -/
abbrev Byte := BitVec 8

/-- A 16-bit value: a displacement, a direct address, a word immediate (R17, R18). -/
abbrev Word := BitVec 16

/-- A 3-bit field of an instruction: a register slot or an r/m value (R43, R45). -/
abbrev Slot := BitVec 3

/-- A line of text, or a part of one, as a list of characters (R105). -/
abbrev Text := List Char

/-- The operand widths of R5: byte (8 bits) and word (16 bits), selected by the width flag `w`. -/
inductive Width where
  | byte
  | word
deriving DecidableEq, Repr

end Sys2Proof
end

