-- ==== Sys2Proof/Config.lean ====
section
/-! DEFINITION. The implementation parameters of IDEC (00_scope.md R5), as plain data. A session holds one value of
`Params`; the default values of the spec stand in Machine/Tables.lean. `LEN` stands beside the stream it measures
(Machine/State.lean). -/

namespace Sys2Proof

/-- A "canonical two-letter name" (R61): two characters by its type. The spec says two-letter of the names of `REG_NAME`
only; that the names of `EA_TABLE` have this type too is a DESIGN CHOICE (log entry 26). -/
structure RegName where
  first  : Char
  second : Char
deriving DecidableEq, Repr

/-- The two names of one register slot: the columns `w = 0` and `w = 1` of `REG_NAME` (R61). -/
structure NamePair where
  byte : RegName
  word : RegName
deriving DecidableEq, Repr

/-- One entry of `EA_TABLE`: a pair (base, index) "in which index may be none" (R63). The spec leaves open how long a name
is in a value of `EA_TABLE`; two characters, as in `REG_NAME`, is the model's DESIGN CHOICE (log entry 26; unsafe). -/
structure EAEntry where
  base  : RegName
  index : Option RegName
deriving DecidableEq, Repr

/-- `NEG_DISP_STYLE`: how a negative displacement is written (R5, R109, 92_eei_decisions.md D5). -/
inductive NegDispStyle where
  | plusSigned
  | minusMagnitude
deriving DecidableEq, Repr

/-- `DISP16_TEXT`: how the formatter reads a 16-bit displacement (R5, R109, 92_eei_decisions.md D6). -/
inductive Disp16Text where
  | signed
  | unsigned
deriving DecidableEq, Repr

/-- The parameters of R5 that a model takes. "A model that keeps the four withheld tables as arguments proves things
for every value of them": they are data of the session, so a statement over all states is over all their values (of these
types: the names of `EA_TABLE` are of two characters, log entry 26). -/
structure Params where
  /-- `OPC_RM6`, the 6-bit code of the register/memory move. -/
  opcRM6 : BitVec 6
  /-- `OPC_IMM4`, the 4-bit code of the immediate-to-register move. -/
  opcIMM4 : BitVec 4
  /-- `REG_NAME`, "a fixed 8×2 lookup table". -/
  regNames : Vector NamePair 8
  /-- `EA_TABLE`, "a fixed 8-entry table keyed by the 3-bit r/m field". -/
  eaTable : Vector EAEntry 8
  /-- `DIRECT_RM`, the r/m value of the direct-address form. -/
  directRM : Slot
  /-- `DIRECT_ADDR`: whether the direct-address form exists. -/
  directAddr : Bool
  /-- `NEG_DISP_STYLE`. -/
  negDispStyle : NegDispStyle
  /-- `DISP16_TEXT`. -/
  disp16Text : Disp16Text
deriving DecidableEq, Repr

end Sys2Proof
end

