-- ==== Sys2Proof/Machine/Fields.lean ====
section
/-! DEFINITION. Bit fields of bytes 0 and 1, and the assembly of bytes into values: the whole arithmetic of the decoder
(00_scope.md R6, R7; 30_encoding.md R42, R43, R45, R48, R49, R56). The inverses used by the encoder stand beside them. -/

namespace Sys2Proof

/-- `b[7:2]`, the opcode field of Format RM (R42). -/
def opcode6 (b : Byte) : BitVec 6 := b.extractLsb' 2 6

/-- `b[7:4]`, the opcode field of Format IR (R45). -/
def opcode4 (b : Byte) : BitVec 4 := b.extractLsb' 4 4

/-- `b[1]`, the direction flag `d` of Format RM (R42): true when the register field names the destination. -/
def dFlag (b : Byte) : Bool := b.getLsbD 1

/-- The width a width flag selects: "0 = byte, 1 = word" (R42, R45). -/
def Width.ofFlag (f : Bool) : Width := if f then .word else .byte

/-- The width flag of a width. -/
def Width.flag : Width → BitVec 1
  | .byte => 0
  | .word => 1

/-- `b[0]`, the width flag of Format RM (R42). -/
def wFlagRM (b : Byte) : Width := Width.ofFlag (b.getLsbD 0)

/-- `b[3]`, the width flag of Format IR (R45). -/
def wFlagIR (b : Byte) : Width := Width.ofFlag (b.getLsbD 3)

/-- `b[2:0]`, the register field of Format IR's byte 0 (R45). -/
def regFieldIR (b : Byte) : Slot := b.extractLsb' 0 3

/-- `b[7:6]` of the mod/reg/rm byte (R43). -/
def modField (b : Byte) : BitVec 2 := b.extractLsb' 6 2

/-- `b[5:3]` of the mod/reg/rm byte (R43). -/
def regField (b : Byte) : Slot := b.extractLsb' 3 3

/-- `b[2:0]` of the mod/reg/rm byte (R43). -/
def rmField (b : Byte) : Slot := b.extractLsb' 0 3

/-- The four addressing modes of the `mod` field (R43). -/
inductive Mode where
  | noDisp
  | disp8
  | disp16
  | register
deriving DecidableEq, Repr

/-- The mode a `mod` value selects: `11` register-to-register, `00` memory without displacement, `01` memory with
8-bit displacement, `10` memory with 16-bit displacement (R43). -/
def Mode.ofBits (m : BitVec 2) : Mode :=
  if m = 0b11 then .register else if m = 0b00 then .noDisp else if m = 0b01 then .disp8 else .disp16

/-- The `mod` value of a mode. -/
def Mode.bits : Mode → BitVec 2
  | .noDisp => 0b00
  | .disp8 => 0b01
  | .disp16 => 0b10
  | .register => 0b11

/-- Byte 0 of Format RM: the opcode, `d`, `w` (R42). -/
def rmLead (p : Params) (d : Bool) (w : Width) : Byte := p.opcRM6 ++ BitVec.ofBool d ++ w.flag

/-- The mod/reg/rm byte (R43). -/
def modRegRm (m : Mode) (reg rm : Slot) : Byte := m.bits ++ reg ++ rm

/-- Byte 0 of Format IR: the opcode, `w`, `reg` (R45). -/
def irLead (p : Params) (w : Width) (reg : Slot) : Byte := p.opcIMM4 ++ w.flag ++ reg

/-- A two-byte field: "the byte at the lower offset is the less significant half" (20_memory.md R28). -/
def le16 (lo hi : Byte) : Word := hi ++ lo

/-- The byte of a two-byte field at the lower offset (R28). -/
def loByte (v : Word) : Byte := v.extractLsb' 0 8

/-- The byte of a two-byte field at the higher offset (R28). -/
def hiByte (v : Word) : Byte := v.extractLsb' 8 8

/-- `sext_16` (R7, R48): the 16-bit value with the same signed meaning. -/
def sext16 (b : Byte) : Word := b.signExtend 16

/-- `zext_16` (R7): the same unsigned value in 16 bits. -/
def zext16 (b : Byte) : Word := b.setWidth 16

/-- `signed16` (R7). -/
def signed16 (v : Word) : Int := v.toInt

end Sys2Proof
end

