-- ==== Sys2Proof/Machine/Tables.lean ====
section
/-! DEFINITION. The operand lookup tables and the default parameter values (00_scope.md R5; 40_operand_tables.md R60 to
R64, R67). The defaults of `OPC_RM6`, `OPC_IMM4`, `REG_NAME`, `EA_TABLE` and `DIRECT_RM` are PRESUMED: the spec itself
takes them "from general knowledge, not in source" (93_implementation_defined.md G2 to G5; log entries 2 to 5). The
defaults of `DIRECT_ADDR`, `NEG_DISP_STYLE` and `DISP16_TEXT` are the spec's own decisions D1, D5, D6. -/

namespace Sys2Proof

/-- The default `REG_NAME` of R61, slot 0 first. -/
def defaultRegNames : Vector NamePair 8 :=
  #v[⟨⟨'a', 'l'⟩, ⟨'a', 'x'⟩⟩, ⟨⟨'c', 'l'⟩, ⟨'c', 'x'⟩⟩, ⟨⟨'d', 'l'⟩, ⟨'d', 'x'⟩⟩, ⟨⟨'b', 'l'⟩, ⟨'b', 'x'⟩⟩,
     ⟨⟨'a', 'h'⟩, ⟨'s', 'p'⟩⟩, ⟨⟨'c', 'h'⟩, ⟨'b', 'p'⟩⟩, ⟨⟨'d', 'h'⟩, ⟨'s', 'i'⟩⟩, ⟨⟨'b', 'h'⟩, ⟨'d', 'i'⟩⟩]

/-- The default `EA_TABLE` of R63, r/m value 0 first. -/
def defaultEATable : Vector EAEntry 8 :=
  #v[⟨⟨'b', 'x'⟩, some ⟨'s', 'i'⟩⟩, ⟨⟨'b', 'x'⟩, some ⟨'d', 'i'⟩⟩, ⟨⟨'b', 'p'⟩, some ⟨'s', 'i'⟩⟩,
     ⟨⟨'b', 'p'⟩, some ⟨'d', 'i'⟩⟩, ⟨⟨'s', 'i'⟩, none⟩, ⟨⟨'d', 'i'⟩, none⟩, ⟨⟨'b', 'p'⟩, none⟩, ⟨⟨'b', 'x'⟩, none⟩]

/-- The default parameters of R5. -/
def Params.default : Params where
  opcRM6 := 0b100010
  opcIMM4 := 0b1011
  regNames := defaultRegNames
  eaTable := defaultEATable
  directRM := 6
  directAddr := false
  negDispStyle := .plusSigned
  disp16Text := .signed

/-- `EA_TABLE[rm]` (R63); "total on their 3-bit index" (R60). -/
def Params.ea (p : Params) (rm : Slot) : EAEntry := p.eaTable.get rm.toFin

/-- `REG_NAME[slot][w]` (R61, R62). -/
def Params.regName (p : Params) (slot : Slot) : Width → RegName
  | .byte => (p.regNames.get slot.toFin).byte
  | .word => (p.regNames.get slot.toFin).word

end Sys2Proof
end

