-- ==== Sys2Proof/Syntax.lean ====
section
/-! DEFINITION. The instructions IDEC decodes: one constructor for each row of spec/opcode_table.json. `D0` and `D1` are
the two values of the direction flag; the fields are `w` (width flag), `reg` and `rm` (byte 1), and the displacement,
address or immediate the trailing bytes hold, little-endian (30_encoding.md R42 to R45, R55). -/

namespace Sys2Proof

/-- A decoded instruction as syntax. Every instruction is a move. -/
inductive Instr where
  /-- MOV_RM_REG_d0 (R71): dest = Reg(rm, w), src = Reg(reg, w). -/
  | movRegD0 (w : Width) (reg rm : Slot)
  /-- MOV_RM_REG_d1 (R71): dest = Reg(reg, w), src = Reg(rm, w). -/
  | movRegD1 (w : Width) (reg rm : Slot)
  /-- MOV_RM_MEM_d0 (R72): the memory operand without displacement is the destination. -/
  | movMemD0 (w : Width) (reg rm : Slot)
  /-- MOV_RM_MEM_d1 (R72): the memory operand without displacement is the source. -/
  | movMemD1 (w : Width) (reg rm : Slot)
  /-- MOV_RM_MEM8_d0 (R73): the memory operand with 8-bit displacement is the destination. -/
  | movMem8D0 (w : Width) (reg rm : Slot) (disp : Byte)
  /-- MOV_RM_MEM8_d1 (R73): the memory operand with 8-bit displacement is the source. -/
  | movMem8D1 (w : Width) (reg rm : Slot) (disp : Byte)
  /-- MOV_RM_MEM16_d0 (R74): the memory operand with 16-bit displacement is the destination. -/
  | movMem16D0 (w : Width) (reg rm : Slot) (disp : Word)
  /-- MOV_RM_MEM16_d1 (R74): the memory operand with 16-bit displacement is the source. -/
  | movMem16D1 (w : Width) (reg rm : Slot) (disp : Word)
  /-- MOV_RM_DIRECT_d0 (R76, only when DIRECT_ADDR = true): the direct address is the destination. -/
  | movDirectD0 (w : Width) (reg : Slot) (addr : Word)
  /-- MOV_RM_DIRECT_d1 (R76, only when DIRECT_ADDR = true): the direct address is the source. -/
  | movDirectD1 (w : Width) (reg : Slot) (addr : Word)
  /-- MOV_IR_BYTE (R85): dest = Reg(reg, 0), src = Imm(data, 0). -/
  | movImmByte (reg : Slot) (data : Byte)
  /-- MOV_IR_WORD (R86): dest = Reg(reg, 1), src = Imm(data, 1). -/
  | movImmWord (reg : Slot) (data : Word)
deriving DecidableEq, Repr

end Sys2Proof
end

