-- ==== Sys2Proof/Decode.lean ====
section
/-! DEFINITION. The decoder, total on any bytes, and after it the encoder (30_encoding.md; the decoding half of
43_sequencer.md R90), and the reading of a word of spec/opcode_table.json. -/

namespace Sys2Proof

/-- What decoding the bytes from an instruction's start gives: an instruction and the bytes after it, or one of the two
errors by name (R120); the step adds the offset (R121). -/
inductive Decoded where
  | ok (i : Instr) (rest : List Byte)
  /-- a byte the instruction needs is beyond the end of the stream (R122, R91) -/
  | truncated
  /-- the leading byte, given here, matches no pattern (R123) -/
  | unrecognized (b : Byte)
deriving DecidableEq, Repr

/-- The format a leading byte selects (R46). -/
inductive Format where
  | rm
  | ir
deriving DecidableEq, Repr

/-- Opcode pattern dispatch (R46): pattern 1, then pattern 2; "first match wins". -/
def classify (p : Params) (b0 : Byte) : Option Format :=
  if opcode6 b0 = p.opcRM6 then some .rm
  else if opcode4 b0 = p.opcIMM4 then some .ir
  else none

/-- The register-to-register move with direction flag `d` (R71, R75). -/
def movReg (d : Bool) (w : Width) (reg rm : Slot) : Instr := if d then .movRegD1 w reg rm else .movRegD0 w reg rm

/-- The memory move without displacement with direction flag `d` (R72, R75). -/
def movMem (d : Bool) (w : Width) (reg rm : Slot) : Instr := if d then .movMemD1 w reg rm else .movMemD0 w reg rm

/-- The memory move with 8-bit displacement with direction flag `d` (R73, R75). -/
def movMem8 (d : Bool) (w : Width) (reg rm : Slot) (disp : Byte) : Instr :=
  if d then .movMem8D1 w reg rm disp else .movMem8D0 w reg rm disp

/-- The memory move with 16-bit displacement with direction flag `d` (R74, R75). -/
def movMem16 (d : Bool) (w : Width) (reg rm : Slot) (disp : Word) : Instr :=
  if d then .movMem16D1 w reg rm disp else .movMem16D0 w reg rm disp

/-- The direct-address move with direction flag `d` (R76, R75). -/
def movDirect (d : Bool) (w : Width) (reg : Slot) (addr : Word) : Instr :=
  if d then .movDirectD1 w reg addr else .movDirectD0 w reg addr

/-- One trailing byte, which must be present (R44, R45, R54). -/
def withByte (k : Byte → Instr) : List Byte → Decoded
  | [] => .truncated
  | b :: rest => .ok (k b) rest

/-- Two trailing bytes, low byte first, which must both be present (R28, R44, R45, R54). -/
def withWord (k : Word → Instr) : List Byte → Decoded
  | lo :: hi :: rest => .ok (k (le16 lo hi)) rest
  | _ => .truncated

/-- Format RM after its byte 0 (R70 to R76): the mod/reg/rm byte, then the displacement bytes its mode asks for. -/
def decodeRM (p : Params) (d : Bool) (w : Width) : List Byte → Decoded
  | [] => .truncated
  | b1 :: rest =>
    match Mode.ofBits (modField b1) with
    | .register => .ok (movReg d w (regField b1) (rmField b1)) rest
    | .noDisp =>
      if p.directAddr && rmField b1 == p.directRM then withWord (movDirect d w (regField b1)) rest
      else .ok (movMem d w (regField b1) (rmField b1)) rest
    | .disp8 => withByte (movMem8 d w (regField b1) (rmField b1)) rest
    | .disp16 => withWord (movMem16 d w (regField b1) (rmField b1)) rest

/-- Format IR after its byte 0 (R85 to R87): one data byte or two, by the width flag. -/
def decodeIR (w : Width) (reg : Slot) (rest : List Byte) : Decoded :=
  match w with
  | .byte => withByte (fun b => .movImmByte reg b) rest
  | .word => withWord (fun v => .movImmWord reg v) rest

/-- Decode the instruction that starts at the head of the bytes (R90). With no byte at all the step's choice of R91
applies (log entry 13). -/
def decode (p : Params) : List Byte → Decoded
  | [] => .truncated
  | b0 :: rest =>
    match classify p b0 with
    | some .rm => decodeRM p (dFlag b0) (wFlagRM b0) rest
    | some .ir => decodeIR (wFlagIR b0) (regFieldIR b0) rest
    | none => .unrecognized b0

/-- The number of bytes an instruction occupies (R41). -/
def Instr.length : Instr → Nat
  | .movRegD0 _ _ _ => 2
  | .movRegD1 _ _ _ => 2
  | .movMemD0 _ _ _ => 2
  | .movMemD1 _ _ _ => 2
  | .movMem8D0 _ _ _ _ => 3
  | .movMem8D1 _ _ _ _ => 3
  | .movMem16D0 _ _ _ _ => 4
  | .movMem16D1 _ _ _ _ => 4
  | .movDirectD0 _ _ _ => 4
  | .movDirectD1 _ _ _ => 4
  | .movImmByte _ _ => 2
  | .movImmWord _ _ => 3

/-- R51: the length told from the first two bytes; none where the leading byte is unrecognized. -/
def lengthOf (p : Params) (b0 b1 : Byte) : Option Nat :=
  if opcode6 b0 = p.opcRM6 then
    if modField b1 = 0b11 then some 2
    else if modField b1 = 0b00 then
      if p.directAddr ∧ rmField b1 = p.directRM then some 4 else some 2
    else if modField b1 = 0b01 then some 3
    else some 4
  else if opcode4 b0 = p.opcIMM4 then
    if b0.getLsbD 3 = false then some 2 else some 3
  else none

/-- The bytes of an instruction, from the field tables of R42 to R45 (and the patterns of R71 to R76, R85, R86). -/
def encode (p : Params) : Instr → List Byte
  | .movRegD0 w reg rm => [rmLead p false w, modRegRm .register reg rm]
  | .movRegD1 w reg rm => [rmLead p true w, modRegRm .register reg rm]
  | .movMemD0 w reg rm => [rmLead p false w, modRegRm .noDisp reg rm]
  | .movMemD1 w reg rm => [rmLead p true w, modRegRm .noDisp reg rm]
  | .movMem8D0 w reg rm disp => [rmLead p false w, modRegRm .disp8 reg rm, disp]
  | .movMem8D1 w reg rm disp => [rmLead p true w, modRegRm .disp8 reg rm, disp]
  | .movMem16D0 w reg rm disp => [rmLead p false w, modRegRm .disp16 reg rm, loByte disp, hiByte disp]
  | .movMem16D1 w reg rm disp => [rmLead p true w, modRegRm .disp16 reg rm, loByte disp, hiByte disp]
  | .movDirectD0 w reg addr => [rmLead p false w, modRegRm .noDisp reg p.directRM, loByte addr, hiByte addr]
  | .movDirectD1 w reg addr => [rmLead p true w, modRegRm .noDisp reg p.directRM, loByte addr, hiByte addr]
  | .movImmByte reg data => [irLead p .byte reg, data]
  | .movImmWord reg data => [irLead p .word reg, loByte data, hiByte data]

/-- The four bytes, in stream order, of a word of spec/opcode_table.json; every bit above `nbits` is 0. The table gives
its bits over `{byte 0, byte 1}` (byte 0 in bits 15:8) for the Format RM rows and over byte 0 alone for the Format IR
rows (R55). So where bits 15:10 hold the code of Format RM the word is read the first way, and otherwise byte 0 is bits
7:0 and each later byte follows above it (DEDUCED, log entry 16). -/
def tableBytes (nbits w : Nat) : List Byte :=
  let v : BitVec 32 := BitVec.ofNat 32 (w % 2 ^ nbits)
  let b0 := v.extractLsb' 0 8
  let b1 := v.extractLsb' 8 8
  let later := [v.extractLsb' 16 8, v.extractLsb' 24 8]
  if opcode6 b1 = Params.default.opcRM6 then b1 :: b0 :: later else b0 :: b1 :: later

/-- Whether a word is one of the two direct-address rows of spec/opcode_table.json (mask 0xFEC7, match 0x8806 or
0x8A06), which "exist only when DIRECT_ADDR = true" and then take priority over the no-displacement rows (R55). -/
def tableWordIsDirect (nbits w : Nat) : Bool :=
  match tableBytes nbits w with
  | b0 :: b1 :: _ =>
    opcode6 b0 == Params.default.opcRM6 && modField b1 == 0b00 && rmField b1 == Params.default.directRM
  | _ => false

/-- The parameters under which a table word's row exists: the defaults, with `DIRECT_ADDR = true` for the two rows whose
condition asks for it (DESIGN CHOICE, log entry 16). -/
def tableParams (nbits w : Nat) : Params := { Params.default with directAddr := tableWordIsDirect nbits w }

/-- The instruction the decoder reads from a word of spec/opcode_table.json. -/
def decodeTableWord (nbits w : Nat) : Option Instr :=
  match decode (tableParams nbits w) (tableBytes nbits w) with
  | .ok i _ => some i
  | .truncated => none
  | .unrecognized _ => none

end Sys2Proof
end

