-- ==== Sys2Proof/Machine/Record.lean ====
section
/-! DEFINITION. The values that cross IDEC's interface: operands, the decoded-instruction record, the two decode errors,
the result of a step (10_state.md R16 to R19; 60_exceptions.md R120, R121). -/

namespace Sys2Proof.Machine

/-- Which addressing mode produced a memory operand (R17). -/
inductive DispKind where
  | nodisp
  | disp8
  | disp16
  | direct
deriving DecidableEq, Repr

/-- An operand descriptor: `Reg(slot, w)` (R16), `Mem(base, index, kind, disp)` (R17), `Imm(value, w)` (R18). -/
inductive Operand where
  | reg (slot : Slot) (w : Width)
  | mem (base index : Option RegName) (kind : DispKind) (disp : Word)
  | imm (value : Word) (w : Width)
deriving DecidableEq, Repr

/-- The operation name of a record: "always the text mov" (R19). -/
inductive Op where
  | mov
deriving DecidableEq, Repr

/-- `Instr(op, dest, src)`, the document's DecodedInstruction (R19). -/
structure Record where
  op   : Op
  dest : Operand
  src  : Operand
deriving DecidableEq, Repr

/-- A decode error and what it carries (R121): exactly two kinds (R120). -/
inductive DecodeError where
  /-- `TruncatedInstruction`: the start offset of the instruction that could not be completed. -/
  | truncatedInstruction (offset : Nat)
  /-- `UnrecognizedOpcode`: the offset of the leading byte that matched no pattern, and that byte's value. -/
  | unrecognizedOpcode (offset : Nat) (byte : Byte)
deriving DecidableEq, Repr

/-- The tagged result of a step: `Ok(Instr)` or `Err(DecodeError)` (R120). -/
inductive Result where
  | ok  (r : Record)
  | err (e : DecodeError)
deriving DecidableEq, Repr

end Sys2Proof.Machine
end

