-- ==== Sys2Proof/Machine/State.lean ====
section
/-! DEFINITION. The state of one decoding session as plain data (10_state.md R10 to R13, R20 to R22), the reasons a step
can stop, and the state after reset. -/

namespace Sys2Proof.Machine

/-- The stream: its length `LEN` and its bytes (R13, R25). `cells` lists, by strictly rising offset, the bytes that are
not 0x00; an offset below `len` that it does not list holds 0x00, and no offset at or above `len` holds anything. So
`len` and `cells` together are the sequence `S`, and equal streams are equal data (log entry 7). -/
structure Memory where
  len   : Nat
  cells : List Host.Cell
deriving DecidableEq, Repr

/-- The two request ports of R20 that a step serves: (b) `decode_next` and (c) `decode_all`. -/
inductive Port where
  | decodeNext
  | decodeAll
deriving DecidableEq, Repr

/-- A result, and the port it went out on. -/
structure Response where
  port   : Port
  result : Result
deriving DecidableEq, Repr

/-- One session. `cursor` and `halted` are IDEC's whole mutable state (R10); `params` and `stream` are constants of the
session (R13, R21); `requests` and `responses` are the ports (b) and (c) of R20 seen from outside (log entries 9, 10). -/
structure State where
  params    : Params
  stream    : Memory
  cursor    : Nat
  halted    : Bool
  requests  : List Port
  responses : List Response
deriving DecidableEq, Repr

/-- The reasons a step stops with a fault: none, so the type has no constructor. "IDEC never aborts, halts the host, or
enters an undefined state on any input" (60_exceptions.md R127); both decode errors are results of a completed step
(R120), after which the machine has a next state. -/
inductive Fault where
deriving DecidableEq, Repr

/-- The reasons a step is refused. -/
inductive Refusal where
  /-- Raised by an arm of `exec` for an instruction without a meaning, by its mnemonic: no arm raises it now. Safe: no
  statement about a next state follows from it. -/
  | notModelled (mnemonic : String)
deriving DecidableEq, Repr

/-- The session right after reset (R22, R140), on the empty stream, with the default parameters: `cursor = 0`,
`halted = 0`, no record produced. The stream is the loader's to supply (log entry 8); `State.start` is reset on any
stream. -/
def State.reset : State where
  params := Params.default
  stream := { len := 0, cells := [] }
  cursor := 0
  halted := false
  requests := []
  responses := []

end Sys2Proof.Machine
end

