-- ==== Sys2Proof/Machine/Ops.lean ====
section
/-! DEFINITION. The shared operations over the stream, the cursor and the ports: the stream read (20_memory.md R26), the
loader's load (70_reset_and_hazards.md R140, R143), emitting a record (43_sequencer.md R90, R92), and raising a decode
error (60_exceptions.md R126). -/

namespace Sys2Proof.Machine

/-- A list of cells in canonical form above an offset: offsets strictly rising, from `lo` on and below `len`, and no
entry equal to 0x00, which an unlisted offset reads as. -/
def Memory.cellsWf (len : Nat) : Nat → List Host.Cell → Bool
  | _, [] => true
  | lo, (a, b) :: rest => decide (lo ≤ a) && decide (a < len) && b != 0 && Memory.cellsWf len (a + 1) rest

/-- The canonical form of a stream. -/
def Memory.wf (m : Memory) : Bool := Memory.cellsWf m.len 0 m.cells

/-- What an unlisted offset below `LEN` holds (log entry 7). -/
def Memory.unlisted : Byte := 0

/-- The byte a list of cells holds at an offset. -/
def Memory.lookup : List Host.Cell → Nat → Byte
  | [], _ => Memory.unlisted
  | (k, b) :: rest, a => if k = a then b else Memory.lookup rest a

/-- `MemRead(a, 1)` without its error: the byte at offset `a`, none at or beyond `LEN` (R25, R26). -/
def Memory.read (m : Memory) (a : Nat) : Option Byte :=
  if a < m.len then some (Memory.lookup m.cells a) else none

/-- `MemRead(a, 2)`: two byte reads, combined little-endian (R7, R28); none if either is beyond the stream. -/
def Memory.read16 (m : Memory) (a : Nat) : Option Word :=
  match m.read a, m.read (a + 1) with
  | some lo, some hi => some (le16 lo hi)
  | _, _ => none

/-- The bytes present at offsets `a` to `a + n - 1`, in increasing order, up to the first absent one (R31). -/
def Memory.window (m : Memory) (a : Nat) : Nat → List Byte
  | 0 => []
  | n + 1 =>
    match m.read a with
    | some b => b :: m.window (a + 1) n
    | none => []

/-- The cells of a byte sequence laid from offset `a`. -/
def Memory.cellsOf (a : Nat) : List Byte → List Host.Cell
  | [] => []
  | b :: rest => if b = Memory.unlisted then Memory.cellsOf (a + 1) rest else (a, b) :: Memory.cellsOf (a + 1) rest

/-- The loader's hand-over: the stream of a byte sequence (R13, R143). -/
def Memory.load (bs : List Byte) : Memory where
  len := bs.length
  cells := Memory.cellsOf 0 bs

/-- A list of cells with the byte at offset `a` replaced, in canonical form. -/
def Memory.insert (a : Nat) (b : Byte) : List Host.Cell → List Host.Cell
  | [] => if b = Memory.unlisted then [] else [(a, b)]
  | (k, c) :: rest =>
    if k < a then (k, c) :: Memory.insert a b rest
    else if k = a then (if b = Memory.unlisted then rest else (a, b) :: rest)
    else if b = Memory.unlisted then (k, c) :: rest else (a, b) :: (k, c) :: rest

/-- The LOADER's write of one byte before a session runs, lengthening the stream to reach it. IDEC itself "performs no
write to any memory" (R27): no step uses it. -/
def Memory.write (m : Memory) (a : Nat) (b : Byte) : Memory where
  len := max m.len (a + 1)
  cells := Memory.insert a b m.cells

/-- The loader's write of a byte sequence from offset `a` on. -/
def Memory.writeBytes (m : Memory) (a : Nat) : List Byte → Memory
  | [] => m
  | b :: rest => (m.write a b).writeBytes (a + 1) rest

/-- Reset: the creation of a session on the byte sequence `bs` (R22, R140, R142), with the parameters `p` and the requests
the driver will make. -/
def State.start (p : Params) (bs : List Byte) (requests : List Port) : State where
  params := p
  stream := Memory.load bs
  cursor := 0
  halted := false
  requests := requests
  responses := []

/-- The most byte reads of one step: the longest instruction (R31, R41). -/
def maxLength : Nat := 4

/-- The bytes of the stream that a step may look at: those present at the offsets `cursor` to `cursor + 3` (R31). -/
def State.window (s : State) : List Byte := s.stream.window s.cursor maxLength

/-- What the decoder finds at the cursor: an instruction, or the error of R121 with the start offset `c = cursor`. -/
def State.fetch (s : State) : Except DecodeError Instr :=
  match decode s.params s.window with
  | .ok i _ => .ok i
  | .truncated => .error (.truncatedInstruction s.cursor)
  | .unrecognized b => .error (.unrecognizedOpcode s.cursor b)

/-- The port whose request the next step serves: the next listed request; with none listed the driver asks `decode_all`
for its next element (R143 item 4; DESIGN CHOICE, log entry 9). -/
def State.port (s : State) : Port := s.requests.headD .decodeAll

/-- A result goes out on the port that asked for it, and the request is served (R20, R120). -/
def State.respond (s : State) (r : Result) : State :=
  { s with requests := s.requests.tail, responses := s.responses ++ [{ port := s.port, result := r }] }

/-- `cursor <- c + n` and `emit r`, the end of a successful step (R90, R92). -/
def State.emit (s : State) (n : Nat) (r : Record) : State :=
  { s.respond (.ok r) with cursor := s.cursor + n }

/-- `raise`, the end of a failed step (R7, R126): the error is the result; the cursor and the stream keep their values; no
record; `halted` becomes 1 if `decode_all` made the call and is not touched by a direct `decode_next` (R12). Nothing is
saved, and no handler runs; there is no return from an error (R128). -/
def State.raise (s : State) (e : DecodeError) : State :=
  { s.respond (.err e) with halted := s.halted || s.port == .decodeAll }

/-- `raise TruncatedInstruction(c)`, with `c` the start of the instruction being decoded (R26, R122). -/
def State.raiseTruncated (s : State) : State := s.raise (.truncatedInstruction s.cursor)

/-- The end of every decode rule: an instruction of `n` bytes whose record is `r`. All its bytes must be present (R122);
then the record is emitted and the cursor committed, else the step raises `TruncatedInstruction(c)`. -/
def State.complete (s : State) (n : Nat) (r : Record) : Host.Outcome State Fault Refusal :=
  if s.cursor + n ≤ s.stream.len then .next (s.emit n r) else .next s.raiseTruncated

end Sys2Proof.Machine
end

