-- ==== Sys2Proof/Machine/Operands.lean ====
section
/-! DEFINITION. Operand forms and the direction rule (30_encoding.md R48 to R50; 41_mov_rm_reg.md R75; 40_operand_tables.md
R64 to R66). -/

namespace Sys2Proof.Machine

/-- A register field with the instruction's width: `Reg(f, w)` (R50). -/
def regOperand (f : Slot) (w : Width) : Operand := .reg f w

/-- A memory operand of the mode `kind`: the pair (base, index) of `EA_TABLE[rm]` and the displacement (R50, R65). -/
def memOperand (p : Params) (rm : Slot) (kind : DispKind) (disp : Word) : Operand :=
  .mem (some (p.ea rm).base) (p.ea rm).index kind disp

/-- Mode `00`: "zero displacement" (R48, R72). -/
def memNoDisp (p : Params) (rm : Slot) : Operand := memOperand p rm .nodisp 0

/-- Mode `01`: one byte "sign-extended from 8 bits before use" (R48, R73). -/
def memDisp8 (p : Params) (rm : Slot) (disp : Byte) : Operand := memOperand p rm .disp8 (sext16 disp)

/-- Mode `10`: the 16-bit displacement (R48, R74). -/
def memDisp16 (p : Params) (rm : Slot) (disp : Word) : Operand := memOperand p rm .disp16 disp

/-- The direct-address operand: no base, no index, an absolute address (R50, R76). -/
def directOperand (addr : Word) : Operand := .mem none none .direct addr

/-- A byte immediate, never sign-extended (R18, R49). -/
def immByteOperand (data : Byte) : Operand := .imm (zext16 data) .byte

/-- A word immediate (R18, R49). -/
def immWordOperand (data : Word) : Operand := .imm data .word

/-- The direction rule (R75): with `d = 1` the register field names the destination, with `d = 0` the source. -/
def directed (d : Bool) (r m : Operand) : Record :=
  if d then { op := .mov, dest := r, src := m } else { op := .mov, dest := m, src := r }

/-- The record of Format IR: the register is always the destination, the immediate the source (R87). -/
def immRecord (dest src : Operand) : Record := { op := .mov, dest := dest, src := src }

/-- The integer meaning of a displacement (R17, R48): signed, but for a direct address, which is unsigned. -/
def dispMeaning (kind : DispKind) (disp : Word) : Int :=
  match kind with
  | .direct => disp.toNat
  | .nodisp => signed16 disp
  | .disp8 => signed16 disp
  | .disp16 => signed16 disp

/-- The address a memory operand describes, given the values its names would have in the decoded program:
`(value(base) + value(index) + disp) mod 2^16` with `value(none) = 0` (R66). DESCRIPTIVE: "described, never computed";
no step and no text of IDEC uses it. The modulus is PRESUMED (log entry 23). -/
def describedAddress (value : RegName → Word) : Operand → Option Word
  | .mem base index _ disp => some ((base.map value).getD 0 + (index.map value).getD 0 + disp)
  | .reg _ _ => none
  | .imm _ _ => none

end Sys2Proof.Machine
end

