-- ==== Sys2Proof/Machine/MovIR.lean ====
section
/-! DEFINITION. The immediate-to-register move, Format IR (42_mov_imm_reg.md). -/

namespace Sys2Proof.Machine

/-- MOV byte immediate to byte register (R85, R87). -/
def execMovImmByte (reg : Slot) (data : Byte) (s : State) : Host.Outcome State Fault Refusal :=
  s.complete 2 (immRecord (regOperand reg .byte) (immByteOperand data))

/-- MOV word immediate to word register (R86, R87). -/
def execMovImmWord (reg : Slot) (data : Word) (s : State) : Host.Outcome State Fault Refusal :=
  s.complete 3 (immRecord (regOperand reg .word) (immWordOperand data))

end Sys2Proof.Machine
end

