-- ==== Sys2Proof/Machine/MovRM.lean ====
section
/-! DEFINITION. The register/memory move, Format RM (41_mov_rm_reg.md). Each meaning forms the record of its rule and ends as
the common part R70 does: emit it and advance the cursor by the length, or raise `TruncatedInstruction`. -/

namespace Sys2Proof.Machine

/-- MOV register to register, `d = 0` (R71, R75). -/
def execMovRegD0 (w : Width) (reg rm : Slot) (s : State) : Host.Outcome State Fault Refusal :=
  s.complete 2 (directed false (regOperand reg w) (regOperand rm w))

/-- MOV register to register, `d = 1` (R71, R75). -/
def execMovRegD1 (w : Width) (reg rm : Slot) (s : State) : Host.Outcome State Fault Refusal :=
  s.complete 2 (directed true (regOperand reg w) (regOperand rm w))

/-- MOV memory, no displacement, `d = 0` (R72, R75). -/
def execMovMemD0 (w : Width) (reg rm : Slot) (s : State) : Host.Outcome State Fault Refusal :=
  s.complete 2 (directed false (regOperand reg w) (memNoDisp s.params rm))

/-- MOV memory, no displacement, `d = 1` (R72, R75). -/
def execMovMemD1 (w : Width) (reg rm : Slot) (s : State) : Host.Outcome State Fault Refusal :=
  s.complete 2 (directed true (regOperand reg w) (memNoDisp s.params rm))

/-- MOV memory, 8-bit displacement, `d = 0` (R73, R75). -/
def execMovMem8D0 (w : Width) (reg rm : Slot) (disp : Byte) (s : State) : Host.Outcome State Fault Refusal :=
  s.complete 3 (directed false (regOperand reg w) (memDisp8 s.params rm disp))

/-- MOV memory, 8-bit displacement, `d = 1` (R73, R75). -/
def execMovMem8D1 (w : Width) (reg rm : Slot) (disp : Byte) (s : State) : Host.Outcome State Fault Refusal :=
  s.complete 3 (directed true (regOperand reg w) (memDisp8 s.params rm disp))

/-- MOV memory, 16-bit displacement, `d = 0` (R74, R75). -/
def execMovMem16D0 (w : Width) (reg rm : Slot) (disp : Word) (s : State) : Host.Outcome State Fault Refusal :=
  s.complete 4 (directed false (regOperand reg w) (memDisp16 s.params rm disp))

/-- MOV memory, 16-bit displacement, `d = 1` (R74, R75). -/
def execMovMem16D1 (w : Width) (reg rm : Slot) (disp : Word) (s : State) : Host.Outcome State Fault Refusal :=
  s.complete 4 (directed true (regOperand reg w) (memDisp16 s.params rm disp))

/-- MOV direct address, `d = 0` (R76, R75). The decoder gives this instruction only under `DIRECT_ADDR = true`. -/
def execMovDirectD0 (w : Width) (reg : Slot) (addr : Word) (s : State) : Host.Outcome State Fault Refusal :=
  s.complete 4 (directed false (regOperand reg w) (directOperand addr))

/-- MOV direct address, `d = 1` (R76, R75). The decoder gives this instruction only under `DIRECT_ADDR = true`. -/
def execMovDirectD1 (w : Width) (reg : Slot) (addr : Word) (s : State) : Host.Outcome State Fault Refusal :=
  s.complete 4 (directed true (regOperand reg w) (directOperand addr))

end Sys2Proof.Machine
end

