-- ==== Sys2Proof/Machine/Dispatch.lean ====
section
/-! DEFINITION. One arm for each constructor of Instr, each a direct call of its meaning. -/

namespace Sys2Proof.Machine

def exec (i : Instr) (s : State) : Host.Outcome State Fault Refusal :=
  match i with
  | .movRegD0 w reg rm => Sys2Proof.Machine.execMovRegD0 w reg rm s
  | .movRegD1 w reg rm => Sys2Proof.Machine.execMovRegD1 w reg rm s
  | .movMemD0 w reg rm => Sys2Proof.Machine.execMovMemD0 w reg rm s
  | .movMemD1 w reg rm => Sys2Proof.Machine.execMovMemD1 w reg rm s
  | .movMem8D0 w reg rm disp => Sys2Proof.Machine.execMovMem8D0 w reg rm disp s
  | .movMem8D1 w reg rm disp => Sys2Proof.Machine.execMovMem8D1 w reg rm disp s
  | .movMem16D0 w reg rm disp => Sys2Proof.Machine.execMovMem16D0 w reg rm disp s
  | .movMem16D1 w reg rm disp => Sys2Proof.Machine.execMovMem16D1 w reg rm disp s
  | .movDirectD0 w reg addr => Sys2Proof.Machine.execMovDirectD0 w reg addr s
  | .movDirectD1 w reg addr => Sys2Proof.Machine.execMovDirectD1 w reg addr s
  | .movImmByte reg data => Sys2Proof.Machine.execMovImmByte reg data s
  | .movImmWord reg data => Sys2Proof.Machine.execMovImmWord reg data s

end Sys2Proof.Machine
end

