-- ==== Sys2Proof/Machine/Flags.lean ====
section
/-! DEFINITION. Status. IDEC "has no status flags and no condition codes" (10_state.md R15): every instruction rule says
"Flags written: none". What a reader could class as status is the pair (`cursor`, `halted`) (R15): the loop condition of
`decode_all` and the two final conditions are read off it (43_sequencer.md R95, R99). The numeric tags of the two errors
stand here too (60_exceptions.md R121). -/

namespace Sys2Proof.Machine

/-- The loop condition of `decode_all`: `halted = 0 and cursor < LEN` (R95). -/
def State.allContinues (s : State) : Bool := !s.halted && decide (s.cursor < s.stream.len)

/-- COMPLETE: `halted = 0` and `cursor = LEN` (R99). -/
def State.isComplete (s : State) : Bool := !s.halted && decide (s.cursor = s.stream.len)

/-- STOPPED: `halted = 1` (R99; that the last yielded element is an error at `cursor` is an invariant). -/
def State.isStopped (s : State) : Bool := s.halted

/-- A final condition of a run of `decode_all` (R99): "exactly two". -/
def State.isFinal (s : State) : Bool := s.isComplete || s.isStopped

/-- The numeric code of an error: "labels only" (R121, 92_eei_decisions.md D8). -/
def DecodeError.code : DecodeError → Nat
  | .truncatedInstruction _ => 1
  | .unrecognizedOpcode _ _ => 2

/-- The offset an error carries (R121). -/
def DecodeError.offset : DecodeError → Nat
  | .truncatedInstruction c => c
  | .unrecognizedOpcode c _ => c

end Sys2Proof.Machine
end

