-- ==== Sys2Proof/Machine/Sequencer.lean ====
section
/-! DEFINITION. The sequencer's part of a step: whether the request at hand makes a `decode_next`, and what a request of
an ended `decode_all` leaves (43_sequencer.md R90, R95, R97). -/

namespace Sys2Proof.Machine

/-- Whether the step decodes: a direct `decode_next` always does (R91 for the end of the stream); `decode_all` does while
its loop condition holds (R95). -/
def State.decodes (s : State) : Bool :=
  match s.port with
  | .decodeNext => true
  | .decodeAll => s.allContinues

/-- A request made of a `decode_all` that has ended: "decode_all produces nothing more" (R12). The request is served and
nothing goes out (log entry 11). -/
def State.endOfSequence (s : State) : State := { s with requests := s.requests.tail }

end Sys2Proof.Machine
end

