-- ==== Sys2Proof/Machine/Step.lean ====
section
/-! DEFINITION. One step: one transaction on port (b) or (c) (10_state.md R20), that is one `decode_next` (43_sequencer.md R90)
or the end of `decode_all`'s sequence (R95). -/

namespace Sys2Proof.Machine

/-- One step of the session. -/
def step (s : State) : Host.Outcome State Fault Refusal :=
  if s.decodes then
    match s.fetch with
    | .ok i => exec i s
    | .error e => .next (s.raise e)
  else .next s.endOfSequence

/-- `s` with the bytes of a word of spec/opcode_table.json laid at the cursor, so that the next step decodes it. It stands
for the loader's hand-over of a stream: the four bytes are written (lengthening the stream to hold them), a stopped
sequence is cleared as a new session would (R142), and `DIRECT_ADDR` is set for the two rows that exist only under it
(log entries 8, 16). -/
def State.withFetchWord (s : State) (nbits w : Nat) : State :=
  { s with
    params := { s.params with directAddr := s.params.directAddr || tableWordIsDirect nbits w }
    stream := s.stream.writeBytes s.cursor (tableBytes nbits w)
    halted := false }

end Sys2Proof.Machine
end

