-- ==== Sys2Proof/Machine/Formatter.lean ====
section
/-! DEFINITION. The operand/address formatter: the pure function from a record to one line of text (44_formatter.md R105 to
R113). It reads no state, only the parameters and the record (R105). -/

namespace Sys2Proof.Machine

/-- A decimal digit as a character. -/
def digitChar (d : Nat) : Char := Char.ofNat (48 + d)

/-- The decimal digits of `n` before `acc`, with at most `fuel` digits. -/
def decDigits : Nat → Nat → Text → Text
  | 0, _, acc => acc
  | fuel + 1, n, acc => if n < 10 then digitChar n :: acc else decDigits fuel (n / 10) (digitChar (n % 10) :: acc)

/-- `dec(n)` of a natural number: "no leading zeros, 0 for zero" (R7). -/
def decNat (n : Nat) : Text := decDigits (n + 1) n []

/-- `dec(n)` of an integer: "a leading - for a negative n" (R7). -/
def decInt (v : Int) : Text := if v < 0 then '-' :: decNat v.natAbs else decNat v.natAbs

/-- A name as text. -/
def nameText (n : RegName) : Text := [n.first, n.second]

/-- The mnemonic as text (R105). -/
def Op.text : Op → Text
  | .mov => ['m', 'o', 'v']

/-- The integer a displacement term shows (R109): signed for `disp8`; for `disp16` as `DISP16_TEXT` says. -/
def shownDisp (p : Params) (kind : DispKind) (disp : Word) : Int :=
  match kind with
  | .nodisp => signed16 disp
  | .disp8 => signed16 disp
  | .disp16 =>
    match p.disp16Text with
    | .signed => signed16 disp
    | .unsigned => disp.toNat
  | .direct => disp.toNat

/-- A displacement value as a term (R109). -/
def signedTerm (style : NegDispStyle) (v : Int) : Text :=
  if v < 0 then
    match style with
    | .plusSigned => [' ', '+', ' '] ++ decInt v
    | .minusMagnitude => [' ', '-', ' '] ++ decInt (-v)
  else [' ', '+', ' '] ++ decInt v

/-- `dispterm(kind, disp)` (R108, R109): empty for `nodisp`; always present for `disp8` and `disp16`. A direct address is
no displacement term (R110). -/
def dispTerm (p : Params) (kind : DispKind) (disp : Word) : Text :=
  match kind with
  | .nodisp => []
  | .disp8 => signedTerm p.negDispStyle (shownDisp p .disp8 disp)
  | .disp16 => signedTerm p.negDispStyle (shownDisp p .disp16 disp)
  | .direct => []

/-- The name of the base register, nothing when there is none (R108, R110). -/
def baseText (base : Option RegName) : Text :=
  match base with
  | some n => nameText n
  | none => []

/-- The index term: " + " and the name, omitted "when there is no index register" (R108). -/
def indexTerm (index : Option RegName) : Text :=
  match index with
  | some n => [' ', '+', ' '] ++ nameText n
  | none => []

/-- The text of a memory operand: R108 for the kinds with a base, R110 for a direct address. -/
def fmtMem (p : Params) (base index : Option RegName) (kind : DispKind) (disp : Word) : Text :=
  match kind with
  | .direct => ['['] ++ decNat disp.toNat ++ [']']
  | .nodisp => ['['] ++ baseText base ++ indexTerm index ++ dispTerm p .nodisp disp ++ [']']
  | .disp8 => ['['] ++ baseText base ++ indexTerm index ++ dispTerm p .disp8 disp ++ [']']
  | .disp16 => ['['] ++ baseText base ++ indexTerm index ++ dispTerm p .disp16 disp ++ [']']

/-- The text of an operand: R106 for a register, R107 for an immediate, R108 to R110 for memory. -/
def fmtOperand (p : Params) : Operand → Text
  | .reg slot w => nameText (p.regName slot w)
  | .imm value _ => decNat value.toNat
  | .mem base index kind disp => fmtMem p base index kind disp

/-- `format(Instr(op, dest, src)) = op ++ " " ++ fmt(dest) ++ ", " ++ fmt(src)` (R105). -/
def formatRecord (p : Params) (r : Record) : Text :=
  r.op.text ++ [' '] ++ fmtOperand p r.dest ++ [',', ' '] ++ fmtOperand p r.src

/-- `HEADER_LINE`, the writer's directive line (R5, R114): not produced by `formatRecord`, recorded as the only directive. -/
def headerLine : Text := ['b', 'i', 't', 's', ' ', '1', '6']

/-- The lines of a list of responses: the formatter "is called once per record to produce one line of output" (R98, R105);
"an error value is never passed to it". -/
def linesOf (p : Params) : List Response → List Text
  | [] => []
  | ⟨_, .ok r⟩ :: rest => formatRecord p r :: linesOf p rest
  | ⟨_, .err _⟩ :: rest => linesOf p rest

end Sys2Proof.Machine
end

