-- ==== Sys2Proof/WellFormed.lean ====
section
/-! DEFINITION. Well-formed parameters (the constraints the spec puts on them) and well-formed instructions (those that an
encoding gives under a parameter value: 30_encoding.md R46, R47, R53; 41_mov_rm_reg.md R72, R76). -/

namespace Sys2Proof

/-- R64: "Any value given to the parameter EA_TABLE must have index ≠ none for rm ≤ 3 and index = none for rm ≥ 4." -/
abbrev Params.indexBoundary (p : Params) : Prop :=
  ∀ rm : Slot, (p.ea rm).index.isSome = decide (rm.toNat ≤ 3)

/-- What the source says of the two withheld codes (end of R5): the byte 0x00 matches neither pattern, and the two
"partially overlap in their prefix bits", read as: they share their leading bit (DEDUCED, log entry 18). -/
abbrev Params.codesAllowed (p : Params) : Prop :=
  p.opcRM6 ≠ 0 ∧ p.opcIMM4 ≠ 0 ∧ p.opcRM6.getLsbD 5 = p.opcIMM4.getLsbD 3

/-- Parameters the spec allows. -/
abbrev Params.wf (p : Params) : Prop := p.indexBoundary ∧ p.codesAllowed

/-- An instruction that some byte sequence decodes to under `p`. A no-displacement move must not be the one that
`DIRECT_ADDR = true` takes for the direct address (R72), a direct-address move exists only under that setting (R76),
and the leading byte of an immediate move must not match the first pattern (R46, R47). All else is legal (R53). -/
def Instr.wf (p : Params) : Instr → Bool
  | .movRegD0 _ _ _ => true
  | .movRegD1 _ _ _ => true
  | .movMemD0 _ _ rm => !(p.directAddr && rm == p.directRM)
  | .movMemD1 _ _ rm => !(p.directAddr && rm == p.directRM)
  | .movMem8D0 _ _ _ _ => true
  | .movMem8D1 _ _ _ _ => true
  | .movMem16D0 _ _ _ _ => true
  | .movMem16D1 _ _ _ _ => true
  | .movDirectD0 _ _ _ => p.directAddr
  | .movDirectD1 _ _ _ => p.directAddr
  | .movImmByte reg _ => opcode6 (irLead p .byte reg) != p.opcRM6
  | .movImmWord reg _ => opcode6 (irLead p .word reg) != p.opcRM6

end Sys2Proof
end

