-- ==== Sys2Proof/Safety.lean ====
section
/-! DEFINITION. The terms claims are stated in: the record each instruction's rule gives, written out from the rules
apart from the machine; which records the decode rules can produce; `decode_next` transcribed from its pseudocode; the shape of a `decode_all` sequence; the
invariant of a session; a valid encoding; `decode_all` by plain recursion; and the syntax of a line. -/

namespace Sys2Proof

open Sys2Proof.Machine

/-- The record of an instruction under the parameters `p`, transcribed from R71 to R76, R85 and R86. -/
def Instr.record (p : Params) : Instr → Record
  | .movRegD0 w reg rm => ⟨.mov, .reg rm w, .reg reg w⟩
  | .movRegD1 w reg rm => ⟨.mov, .reg reg w, .reg rm w⟩
  | .movMemD0 w reg rm => ⟨.mov, .mem (some (p.ea rm).base) (p.ea rm).index .nodisp 0, .reg reg w⟩
  | .movMemD1 w reg rm => ⟨.mov, .reg reg w, .mem (some (p.ea rm).base) (p.ea rm).index .nodisp 0⟩
  | .movMem8D0 w reg rm disp =>
    ⟨.mov, .mem (some (p.ea rm).base) (p.ea rm).index .disp8 (disp.signExtend 16), .reg reg w⟩
  | .movMem8D1 w reg rm disp =>
    ⟨.mov, .reg reg w, .mem (some (p.ea rm).base) (p.ea rm).index .disp8 (disp.signExtend 16)⟩
  | .movMem16D0 w reg rm disp => ⟨.mov, .mem (some (p.ea rm).base) (p.ea rm).index .disp16 disp, .reg reg w⟩
  | .movMem16D1 w reg rm disp => ⟨.mov, .reg reg w, .mem (some (p.ea rm).base) (p.ea rm).index .disp16 disp⟩
  | .movDirectD0 w reg addr => ⟨.mov, .mem none none .direct addr, .reg reg w⟩
  | .movDirectD1 w reg addr => ⟨.mov, .reg reg w, .mem none none .direct addr⟩
  | .movImmByte reg data => ⟨.mov, .reg reg .byte, .imm (data.setWidth 16) .byte⟩
  | .movImmWord reg data => ⟨.mov, .reg reg .word, .imm data .word⟩

/-- The format of an instruction (R40). -/
def Instr.format : Instr → Format
  | .movRegD0 _ _ _ => .rm
  | .movRegD1 _ _ _ => .rm
  | .movMemD0 _ _ _ => .rm
  | .movMemD1 _ _ _ => .rm
  | .movMem8D0 _ _ _ _ => .rm
  | .movMem8D1 _ _ _ _ => .rm
  | .movMem16D0 _ _ _ _ => .rm
  | .movMem16D1 _ _ _ _ => .rm
  | .movDirectD0 _ _ _ => .rm
  | .movDirectD1 _ _ _ => .rm
  | .movImmByte _ _ => .ir
  | .movImmWord _ _ => .ir

namespace Machine

/-- The request at hand makes a `decode_next`: it is a direct one, or one of `decode_all` whose loop condition
`halted = 0 and cursor < LEN` holds (R90, R95). -/
def Serves (s : State) : Prop := s.port = .decodeNext ∨ (s.halted = false ∧ s.cursor < s.stream.len)

/-- `MemRead(a, 1)` in the decoding of the instruction at `c` (R7, R26). -/
def memRead (m : Memory) (c a : Nat) : Except DecodeError Byte :=
  match m.read a with
  | some b => .ok b
  | none => .error (.truncatedInstruction c)

/-- The operand `M` that the r/m field produces and the length `n`: the `case mod of` of R90. -/
def rmOperandRule (p : Params) (m : Memory) (c : Nat) (w : Width) (mode : BitVec 2) (rm : Slot) :
    Except DecodeError (Operand × Nat) :=
  if mode = 0b11 then .ok (.reg rm w, 2)
  else if mode = 0b00 then
    if p.directAddr = true ∧ rm = p.directRM then do
      let l ← memRead m c (c + 2)
      let h ← memRead m c (c + 3)
      return (.mem none none .direct (h ++ l), 4)
    else .ok (.mem (some (p.ea rm).base) (p.ea rm).index .nodisp 0, 2)
  else if mode = 0b01 then do
    let b ← memRead m c (c + 2)
    return (.mem (some (p.ea rm).base) (p.ea rm).index .disp8 (b.signExtend 16), 3)
  else do
    let l ← memRead m c (c + 2)
    let h ← memRead m c (c + 3)
    return (.mem (some (p.ea rm).base) (p.ea rm).index .disp16 (h ++ l), 4)

/-- `decode_next` as R90's pseudocode has it, reading the stream byte by byte: the record and the length `n`, or the
error. Written apart from the decoder, which works on a list of bytes and goes through Instr. -/
def decodeNextRule (p : Params) (m : Memory) (c : Nat) : Except DecodeError (Record × Nat) := do
  let b0 ← memRead m c c
  if b0.extractLsb' 2 6 = p.opcRM6 then do
    let w : Width := if b0.getLsbD 0 then .word else .byte
    let b1 ← memRead m c (c + 1)
    let r : Operand := .reg (b1.extractLsb' 3 3) w
    let (x, n) ← rmOperandRule p m c w (b1.extractLsb' 6 2) (b1.extractLsb' 0 3)
    if b0.getLsbD 1 then return (⟨.mov, r, x⟩, n) else return (⟨.mov, x, r⟩, n)
  else if b0.extractLsb' 4 4 = p.opcIMM4 then
    if b0.getLsbD 3 = false then do
      let b ← memRead m c (c + 1)
      return (⟨.mov, .reg (b0.extractLsb' 0 3) .byte, .imm (b.setWidth 16) .byte⟩, 2)
    else do
      let l ← memRead m c (c + 1)
      let h ← memRead m c (c + 2)
      return (⟨.mov, .reg (b0.extractLsb' 0 3) .word, .imm (h ++ l) .word⟩, 3)
  else .error (.unrecognizedOpcode c b0)

/-- A pair (base, index) that `EA_TABLE` holds (R17, R65). -/
def EAPair (p : Params) (base index : Option RegName) : Prop :=
  ∃ rm : Slot, base = some (p.ea rm).base ∧ index = (p.ea rm).index

/-- The memory operands that the decode rules give (R17, R48): a table pair with the displacement its kind allows; no base
and no index only in the direct-address form, "which exists only when DIRECT_ADDR = true". -/
def MemWf (p : Params) (base index : Option RegName) (kind : DispKind) (disp : Word) : Prop :=
  match kind with
  | .nodisp => EAPair p base index ∧ disp = 0
  | .disp8 => EAPair p base index ∧ -128 ≤ signed16 disp ∧ signed16 disp ≤ 127
  | .disp16 => EAPair p base index
  | .direct => base = none ∧ index = none ∧ p.directAddr = true

/-- The immediates of R18: "0 to 255 when w = 0 and 0 to 65535 when w = 1". -/
def ImmWf (value : Word) (w : Width) : Prop :=
  match w with
  | .byte => value.toNat ≤ 255
  | .word => value.toNat ≤ 65535

/-- The records the decode rules can produce are exactly (Reg, Reg), (Reg, Mem), (Mem, Reg) and (Reg, Imm) (R19), the two
widths of a pair agreeing (R50, R87). -/
def Record.wf (p : Params) (r : Record) : Prop :=
  match r.dest, r.src with
  | .reg _ w, .reg _ w' => w = w'
  | .reg _ _, .mem base index kind disp => MemWf p base index kind disp
  | .mem base index kind disp, .reg _ _ => MemWf p base index kind disp
  | .reg _ w, .imm value w' => w = w' ∧ ImmWf value w
  | .mem _ _ _ _, .mem _ _ _ _ => False
  | .mem _ _ _ _, .imm _ _ => False
  | .imm _ _, _ => False

/-- The length of the instruction that gives an operand beside a register (R41). -/
def Operand.size : Operand → Nat
  | .reg _ _ => 2
  | .mem _ _ .nodisp _ => 2
  | .mem _ _ .disp8 _ => 3
  | .mem _ _ .disp16 _ => 4
  | .mem _ _ .direct _ => 4
  | .imm _ .byte => 2
  | .imm _ .word => 3

/-- The length of the instruction that gives a record (R41): the greater of its operands' sizes, a register's being 2. -/
def Record.size (r : Record) : Nat := max r.dest.size r.src.size

/-- The bytes consumed by the instructions whose records went out, on either port. -/
def consumed : List Response → Nat
  | [] => 0
  | ⟨_, .ok r⟩ :: rest => r.size + consumed rest
  | ⟨_, .err _⟩ :: rest => consumed rest

/-- The sequence `decode_all` has yielded so far (R95). -/
def yielded : List Response → List Result
  | [] => []
  | ⟨.decodeAll, r⟩ :: rest => r :: yielded rest
  | ⟨.decodeNext, _⟩ :: rest => yielded rest

/-- Whether a result is `Ok`. -/
def Result.isOk : Result → Bool
  | .ok _ => true
  | .err _ => false

/-- "zero or more Ok(Instr), then at most one Err" (R95): every element before the last is `Ok`. -/
def SequenceShape (l : List Result) : Prop := ∀ r ∈ l.dropLast, r.isOk = true

/-- The invariant of a session (R11 (a), R17 to R19, R94, R95, R99). -/
structure Inv (s : State) : Prop where
  /-- the stream is in canonical form -/
  stream : s.stream.wf = true
  /-- "0 ≤ cursor ≤ LEN at all times" (R11) -/
  cursor : s.cursor ≤ s.stream.len
  /-- the cursor is the sum of the lengths of the instructions decoded (R94) -/
  consumption : s.cursor = consumed s.responses
  /-- every record that went out is one the decode rules can produce (R19) -/
  records : ∀ o ∈ s.responses, ∀ r, o.result = .ok r → r.wf s.params
  /-- the sequence of `decode_all` has its shape (R95) -/
  shape : SequenceShape (yielded s.responses)
  /-- no element of the sequence is an error while `halted = 0` (R95) -/
  running : s.halted = false → ∀ r ∈ yielded s.responses, r.isOk = true
  /-- once `halted = 1` the last element is the error a decode at the cursor gives, before the end of the stream (R99, R129) -/
  stopped : s.halted = true →
    s.cursor < s.stream.len ∧ ∃ e, s.fetch = .error e ∧ (yielded s.responses).getLast? = some (.err e)

/-- `E` is a single valid encoding with the record `r`: "decoding the stream E alone from offset 0 succeeds and leaves the
cursor at n" (R100). -/
def ValidEncoding (p : Params) (e : List Byte) (r : Record) : Prop :=
  ∃ t, step (State.start p e []) = .next t ∧ t.cursor = e.length ∧ t.responses = [⟨.decodeAll, .ok r⟩]

/-- `decode_all` by recursion that ends on an error, without the stop bit (92_eei_decisions.md D3): what it yields from
the offset `c` on, the bytes from there being given; at most `fuel` elements. -/
def decodeAllFrom (p : Params) : Nat → Nat → List Byte → List Result
  | 0, _, _ => []
  | fuel + 1, c, bs =>
    if bs = [] then []
    else
      match decode p bs with
      | .ok i rest => .ok (i.record p) :: decodeAllFrom p fuel (c + i.length) rest
      | .truncated => [.err (.truncatedInstruction c)]
      | .unrecognized b => [.err (.unrecognizedOpcode c b)]

/-- The sequence `decode_all` yields on a whole stream: a run has at most `floor(LEN/2) + 1` elements (R99). -/
def decodeAll (p : Params) (bs : List Byte) : List Result := decodeAllFrom p (bs.length / 2 + 1) 0 bs

/-- A decimal digit. -/
def isDigit (c : Char) : Bool := decide (48 ≤ c.toNat) && decide (c.toNat ≤ 57)

/-- A "decimal numeral without sign" (R113), with "no leading zeros, 0 for zero" (R7). -/
def IsNumber (t : Text) : Prop := t ≠ [] ∧ (∀ c ∈ t, isDigit c = true) ∧ (t.head? = some '0' → t = ['0'])

/-- `signednum` (R113). -/
def IsSignedNumber (t : Text) : Prop := IsNumber t ∨ ∃ u, IsNumber u ∧ t = '-' :: u

/-- `regname`: "one of the 16 entries of REG_NAME" (R113). -/
def IsRegNameText (p : Params) (t : Text) : Prop := ∃ slot w, t = nameText (p.regName slot w)

/-- `basename`: "a base name of EA_TABLE" (R113). -/
def IsBaseText (p : Params) (t : Text) : Prop := ∃ rm : Slot, t = nameText (p.ea rm).base

/-- `[ " + " indexname ]` (R113): absent, or an index name of `EA_TABLE`. -/
def IsIndexPart (p : Params) (t : Text) : Prop :=
  t = [] ∨ ∃ (rm : Slot) (n : RegName), (p.ea rm).index = some n ∧ t = [' ', '+', ' '] ++ nameText n

/-- `[ " + " signednum ]` (R113). -/
def IsDispPart (t : Text) : Prop := t = [] ∨ ∃ u, IsSignedNumber u ∧ t = [' ', '+', ' '] ++ u

/-- `memory` (R113). -/
def IsMemoryText (p : Params) (t : Text) : Prop :=
  (∃ b i d, IsBaseText p b ∧ IsIndexPart p i ∧ IsDispPart d ∧ t = ['['] ++ b ++ i ++ d ++ [']']) ∨
    (p.directAddr = true ∧ ∃ u, IsNumber u ∧ t = ['['] ++ u ++ [']'])

/-- `operand` (R113). -/
def IsOperandText (p : Params) (t : Text) : Prop := IsRegNameText p t ∨ IsMemoryText p t ∨ IsNumber t

/-- `line` (R113). -/
def IsLineText (p : Params) (t : Text) : Prop :=
  ∃ a b, IsOperandText p a ∧ IsOperandText p b ∧ t = ['m', 'o', 'v', ' '] ++ a ++ [',', ' '] ++ b

/-- The number a string of decimal digits denotes. -/
def numeralValue (t : Text) : Nat := t.foldl (fun n c => 10 * n + (c.toNat - 48)) 0

end Machine

end Sys2Proof
end

