-- ==== Sys2Proof/Certificates/Slice0/Obligations.lean ====
section
/-! DEFINITION. The statements for the provers, each from rules of spec/. A statement over all states is a statement over
all values of the parameters, since the parameters are data of the state. -/

open Sys2Proof Sys2Proof.Machine

/-! ## Reset -/

/-- R22, R140: what the creation of a session on a stream leaves: `cursor` 0, `halted` 0, the stream and its length as
supplied, the tables as given; no record produced. `halted` is the spec's own decision D3 (log entry 14). -/
def Obligations.StartSetsCursorHaltedAndStream : Prop :=
  ∀ (p : Params) (bs : List Byte) (q : List Port),
    (State.start p bs q).cursor = 0 ∧ (State.start p bs q).halted = false ∧ (State.start p bs q).responses = [] ∧
      (State.start p bs q).params = p ∧ (State.start p bs q).stream.len = bs.length ∧
      ∀ a, (State.start p bs q).stream.read a = bs[a]?

/-- The model's reset state is a session on the empty stream with the default parameters and no request listed (the
empty stream and the request list are the model's choice: log entries 8, 9). -/
def Obligations.ResetIsASessionOnTheEmptyStream : Prop :=
  State.reset = State.start Params.default [] []

/-- The default parameters satisfy what the spec asks of any value (R64, end of R5), and the sixteen default names are
pairwise distinct (R61). The defaults are PRESUMED (log entries 2 to 4). -/
def Obligations.DefaultParametersAreAllowed : Prop :=
  Params.default.wf ∧
    ∀ (a b : Slot) (v w : Width), Params.default.regName a v = Params.default.regName b w → a = b ∧ v = w

/-! ## Encoding -/

/-- Decoding the encoding of any well-formed instruction gives it back, with every operand at every value, under every
parameter value, whatever bytes follow. -/
def Obligations.DecodeOfEncodeGivesTheInstruction : Prop :=
  ∀ (p : Params) (i : Instr) (rest : List Byte), i.wf p = true → decode p (encode p i ++ rest) = .ok i rest

/-- Whatever bytes the decoder accepts are the encoding of a well-formed instruction, followed by the bytes it left. -/
def Obligations.DecodedBytesAreTheEncoding : Prop :=
  ∀ (p : Params) (bs : List Byte) (i : Instr) (rest : List Byte),
    decode p bs = .ok i rest → i.wf p = true ∧ bs = encode p i ++ rest

/-- One word of each row of the opcode table, written out from its pattern (R55), decodes to that row's instruction. -/
def Obligations.TableWordsDecodeToTheirRows : Prop :=
  decodeTableWord 16 0b1000100111011001 = some (.movRegD0 .word 3 1) ∧
    decodeTableWord 16 0b1000101011100001 = some (.movRegD1 .byte 4 1) ∧
    decodeTableWord 16 0b1000100100001001 = some (.movMemD0 .word 1 1) ∧
    decodeTableWord 16 0b1000101000000000 = some (.movMemD1 .byte 0 0) ∧
    decodeTableWord 16 0b1000100001101110 = some (.movMem8D0 .byte 5 6 0) ∧
    decodeTableWord 16 0b1000101101010110 = some (.movMem8D1 .word 2 6 0) ∧
    decodeTableWord 16 0b1000100110001010 = some (.movMem16D0 .word 1 2 0) ∧
    decodeTableWord 16 0b1000101110010110 = some (.movMem16D1 .word 2 6 0) ∧
    decodeTableWord 16 0b1000100100011110 = some (.movDirectD0 .word 3 0) ∧
    decodeTableWord 16 0b1000101100011110 = some (.movDirectD1 .word 3 0) ∧
    decodeTableWord 8 0b10110001 = some (.movImmByte 1 0) ∧
    decodeTableWord 8 0b10111001 = some (.movImmWord 1 0)

/-- R51: the length the decoder takes is the function of the first two bytes that the rule gives, of byte 0 alone for
Format IR; and the decoder accepts as soon as that many bytes are there. -/
def Obligations.LengthIsToldByTheFirstTwoBytes : Prop :=
  (∀ (p : Params) (b0 b1 : Byte) (tail rest : List Byte) (i : Instr), decode p (b0 :: b1 :: tail) = .ok i rest →
      lengthOf p b0 b1 = some i.length ∧ i.length + rest.length = tail.length + 2) ∧
    (∀ (p : Params) (b0 b1 : Byte) (tail : List Byte) (n : Nat), lengthOf p b0 b1 = some n → n ≤ tail.length + 2 →
      ∃ i rest, decode p (b0 :: b1 :: tail) = .ok i rest) ∧
    (∀ (p : Params) (b0 b1 b1' : Byte), b0.extractLsb' 2 6 ≠ p.opcRM6 → lengthOf p b0 b1 = lengthOf p b0 b1')

/-- R46: pattern 1 is tested first, then pattern 2; a byte of neither is unrecognized. Only byte 0 takes part: whatever
bytes follow, the format stays and no later byte makes the opcode unrecognized. A step at a byte of neither pattern ends
with `raise UnrecognizedOpcode(c, b0)`. -/
def Obligations.LeadingByteAloneSelectsTheFormat : Prop :=
  (∀ (p : Params) (b0 : Byte) (tail : List Byte),
    (b0.extractLsb' 2 6 = p.opcRM6 →
      decode p (b0 :: tail) = .truncated ∨ ∃ i rest, decode p (b0 :: tail) = .ok i rest ∧ i.format = .rm) ∧
    (b0.extractLsb' 2 6 ≠ p.opcRM6 → b0.extractLsb' 4 4 = p.opcIMM4 →
      decode p (b0 :: tail) = .truncated ∨ ∃ i rest, decode p (b0 :: tail) = .ok i rest ∧ i.format = .ir) ∧
    (b0.extractLsb' 2 6 ≠ p.opcRM6 → b0.extractLsb' 4 4 ≠ p.opcIMM4 → decode p (b0 :: tail) = .unrecognized b0)) ∧
  (∀ (s : State) (b0 : Byte), Serves s → s.stream.read s.cursor = some b0 → b0.extractLsb' 2 6 ≠ s.params.opcRM6 →
    b0.extractLsb' 4 4 ≠ s.params.opcIMM4 →
    ∃ t, step s = .next t ∧ t.responses = s.responses ++ [⟨s.port, .err (.unrecognizedOpcode s.cursor b0)⟩])

/-- R47 with R46, for any codes: the classifier takes some byte of pattern 2 for Format RM exactly when
`OPC_RM6[5:2] = OPC_IMM4`; Format RM is always just the four leading bytes whose top six bits are `OPC_RM6`; and a byte of
pattern 2 is Format RM if it is one of those, and Format IR otherwise. -/
def Obligations.PatternsShareAByteExactlyWhenPrefixesAgree : Prop :=
  ∀ p : Params,
    ((∃ b : Byte, b.extractLsb' 4 4 = p.opcIMM4 ∧ classify p b = some .rm) ↔ p.opcRM6.extractLsb' 2 4 = p.opcIMM4) ∧
    (∀ b : Byte, classify p b = some .rm ↔ ∃ (d : Bool) (w : Width), b = rmLead p d w) ∧
    (∀ b : Byte, b.extractLsb' 4 4 = p.opcIMM4 →
      (classify p b = some .rm ↔ b.extractLsb' 2 6 = p.opcRM6) ∧
      (classify p b = some .ir ↔ b.extractLsb' 2 6 ≠ p.opcRM6))

/-- R47, R52, R55, under the default codes: Format RM is 0x88 to 0x8B, Format IR is 0xB0 to 0xBF, and 0x00 to 0x87, 0x8C
to 0xAF and 0xC0 to 0xFF are unrecognized. The codes are PRESUMED (log entry 2). -/
def Obligations.DefaultLeadingByteSets : Prop :=
  (∀ b : Byte, classify Params.default b = some .rm ↔ 0x88 ≤ b.toNat ∧ b.toNat ≤ 0x8B) ∧
    (∀ b : Byte, classify Params.default b = some .ir ↔ 0xB0 ≤ b.toNat ∧ b.toNat ≤ 0xBF) ∧
    (∀ b : Byte, classify Params.default b = none ↔
      b.toNat ≤ 0x87 ∨ (0x8C ≤ b.toNat ∧ b.toNat ≤ 0xAF) ∨ 0xC0 ≤ b.toNat)

/-- R100: "no valid encoding is a proper prefix of another valid encoding". -/
def Obligations.NoEncodingIsAProperPrefixOfAnother : Prop :=
  ∀ (p : Params) (i j : Instr), i.wf p = true → j.wf p = true → encode p i <+: encode p j → i = j

/-! ## Completion and result, form by form

Each gives the whole next state, so each is its instruction's frame too: the parameters, every byte of the stream and the
stop bit are unchanged; the cursor, the served request and the emitted record are the only effects. -/

/-- R71 with R75: the register-to-register moves complete when their two bytes are present. -/
def Obligations.RegisterMoveCompletes : Prop :=
  ∀ (w : Width) (reg rm : Slot) (s : State), s.cursor + 2 ≤ s.stream.len →
    exec (.movRegD0 w reg rm) s = .next { s with
      cursor := s.cursor + 2, requests := s.requests.tail,
      responses := s.responses ++ [⟨s.port, .ok ⟨.mov, .reg rm w, .reg reg w⟩⟩] } ∧
    exec (.movRegD1 w reg rm) s = .next { s with
      cursor := s.cursor + 2, requests := s.requests.tail,
      responses := s.responses ++ [⟨s.port, .ok ⟨.mov, .reg reg w, .reg rm w⟩⟩] }

/-- R72 with R75: the memory moves without displacement complete when their two bytes are present. -/
def Obligations.MemoryMoveCompletes : Prop :=
  ∀ (w : Width) (reg rm : Slot) (s : State), s.cursor + 2 ≤ s.stream.len →
    exec (.movMemD0 w reg rm) s = .next { s with
      cursor := s.cursor + 2, requests := s.requests.tail,
      responses := s.responses ++ [⟨s.port,
        .ok ⟨.mov, .mem (some (s.params.ea rm).base) (s.params.ea rm).index .nodisp 0, .reg reg w⟩⟩] } ∧
    exec (.movMemD1 w reg rm) s = .next { s with
      cursor := s.cursor + 2, requests := s.requests.tail,
      responses := s.responses ++ [⟨s.port,
        .ok ⟨.mov, .reg reg w, .mem (some (s.params.ea rm).base) (s.params.ea rm).index .nodisp 0⟩⟩] }

/-- R73 with R75: the memory moves with 8-bit displacement complete when their three bytes are present; the displacement
is sign-extended. -/
def Obligations.MemoryMoveDisp8Completes : Prop :=
  ∀ (w : Width) (reg rm : Slot) (disp : Byte) (s : State), s.cursor + 3 ≤ s.stream.len →
    ∃ d : Word, d.toInt = disp.toInt ∧
    exec (.movMem8D0 w reg rm disp) s = .next { s with
      cursor := s.cursor + 3, requests := s.requests.tail,
      responses := s.responses ++ [⟨s.port,
        .ok ⟨.mov, .mem (some (s.params.ea rm).base) (s.params.ea rm).index .disp8 d, .reg reg w⟩⟩] } ∧
    exec (.movMem8D1 w reg rm disp) s = .next { s with
      cursor := s.cursor + 3, requests := s.requests.tail,
      responses := s.responses ++ [⟨s.port,
        .ok ⟨.mov, .reg reg w, .mem (some (s.params.ea rm).base) (s.params.ea rm).index .disp8 d⟩⟩] }

/-- R74 with R75: the memory moves with 16-bit displacement complete when their four bytes are present. -/
def Obligations.MemoryMoveDisp16Completes : Prop :=
  ∀ (w : Width) (reg rm : Slot) (disp : Word) (s : State), s.cursor + 4 ≤ s.stream.len →
    exec (.movMem16D0 w reg rm disp) s = .next { s with
      cursor := s.cursor + 4, requests := s.requests.tail,
      responses := s.responses ++ [⟨s.port,
        .ok ⟨.mov, .mem (some (s.params.ea rm).base) (s.params.ea rm).index .disp16 disp, .reg reg w⟩⟩] } ∧
    exec (.movMem16D1 w reg rm disp) s = .next { s with
      cursor := s.cursor + 4, requests := s.requests.tail,
      responses := s.responses ++ [⟨s.port,
        .ok ⟨.mov, .reg reg w, .mem (some (s.params.ea rm).base) (s.params.ea rm).index .disp16 disp⟩⟩] }

/-- R76 with R75: the direct-address moves complete when their four bytes are present. -/
def Obligations.DirectAddressMoveCompletes : Prop :=
  ∀ (w : Width) (reg : Slot) (addr : Word) (s : State), s.cursor + 4 ≤ s.stream.len →
    exec (.movDirectD0 w reg addr) s = .next { s with
      cursor := s.cursor + 4, requests := s.requests.tail,
      responses := s.responses ++ [⟨s.port, .ok ⟨.mov, .mem none none .direct addr, .reg reg w⟩⟩] } ∧
    exec (.movDirectD1 w reg addr) s = .next { s with
      cursor := s.cursor + 4, requests := s.requests.tail,
      responses := s.responses ++ [⟨s.port, .ok ⟨.mov, .reg reg w, .mem none none .direct addr⟩⟩] }

/-- R85 with R87: the byte-immediate move completes when its two bytes are present; the immediate is unsigned. -/
def Obligations.ByteImmediateMoveCompletes : Prop :=
  ∀ (reg : Slot) (data : Byte) (s : State), s.cursor + 2 ≤ s.stream.len →
    ∃ v : Word, v.toNat = data.toNat ∧
    exec (.movImmByte reg data) s = .next { s with
      cursor := s.cursor + 2, requests := s.requests.tail,
      responses := s.responses ++ [⟨s.port, .ok ⟨.mov, .reg reg .byte, .imm v .byte⟩⟩] }

/-- R86 with R87: the word-immediate move completes when its three bytes are present. -/
def Obligations.WordImmediateMoveCompletes : Prop :=
  ∀ (reg : Slot) (data : Word) (s : State), s.cursor + 3 ≤ s.stream.len →
    exec (.movImmWord reg data) s = .next { s with
      cursor := s.cursor + 3, requests := s.requests.tail,
      responses := s.responses ++ [⟨s.port, .ok ⟨.mov, .reg reg .word, .imm data .word⟩⟩] }

/-- R124: every form raises `TruncatedInstruction` at its start when a byte of it is missing, and changes nothing else
than an error does (R126; where the cursor stays and when `halted` is set are the spec's own decisions D2, D3: log entry
14). -/
def Obligations.EveryFormRaisesTruncatedWhenAByteIsMissing : Prop :=
  ∀ (i : Instr) (s : State), s.stream.len < s.cursor + i.length →
    exec i s = .next { s with
      halted := s.halted || s.port == .decodeAll, requests := s.requests.tail,
      responses := s.responses ++ [⟨s.port, .err (.truncatedInstruction s.cursor)⟩] }

/-- R71, corner cases: `d=0, reg=a, rm=b` and `d=1, reg=b, rm=a` are two different valid encodings of one record, so
"decoding is not injective on this form". -/
def Obligations.RegisterMoveHasTwoEncodingsOfOneRecord : Prop :=
  ∀ (p : Params) (w : Width) (a b : Slot),
    encode p (.movRegD0 w a b) ≠ encode p (.movRegD1 w b a) ∧
      ValidEncoding p (encode p (.movRegD0 w a b)) ⟨.mov, .reg b w, .reg a w⟩ ∧
      ValidEncoding p (encode p (.movRegD1 w b a)) ⟨.mov, .reg b w, .reg a w⟩

/-- R88: the decode is injective on the immediate-to-register family: two instructions of it that emit the same record, in
whatever sessions, are the same instruction, so its width, register and data are all in the record. -/
def Obligations.ImmediateMovesAreReadBackFromTheRecord : Prop :=
  ∀ (i j : Instr) (s s' t t' : State) (r : Record), i.format = .ir → j.format = .ir →
    exec i s = .next t → t.responses = s.responses ++ [⟨s.port, .ok r⟩] →
    exec j s' = .next t' → t'.responses = s'.responses ++ [⟨s'.port, .ok r⟩] → i = j

/-- The frame of every instruction (R92, R126; R27 for the stream): whichever way it ends, the parameters, the length and
every byte of the stream are unchanged; one request is served and one result goes out; the cursor keeps its value or moves
by the instruction's length; and `halted` is unchanged when the instruction's bytes are present. That the cursor keeps
its value when a byte is missing is the spec's own decision D2 (log entry 14). -/
def Obligations.EveryInstructionLeavesAllElseUnchanged : Prop :=
  ∀ (i : Instr) (s t : State), exec i s = .next t →
    t.params = s.params ∧ t.stream.len = s.stream.len ∧ (∀ a, t.stream.read a = s.stream.read a) ∧
      t.requests = s.requests.tail ∧ (∃ r, t.responses = s.responses ++ [⟨s.port, r⟩]) ∧
      (s.cursor + i.length ≤ s.stream.len → t.halted = s.halted ∧ t.cursor = s.cursor + i.length) ∧
      (s.stream.len < s.cursor + i.length → t.cursor = s.cursor)

/-! ## The step -/

/-- When the bytes at the cursor are the encoding of a well-formed instruction and the request makes a `decode_next`, the
step is that instruction's meaning; the step adds nothing around it. -/
def Obligations.StepRunsTheInstructionAtTheCursor : Prop :=
  ∀ (s : State) (i : Instr), Serves s → i.wf s.params = true →
    (∀ k, k < i.length → s.stream.read (s.cursor + k) = (encode s.params i)[k]?) → step s = exec i s

/-- A word of the opcode table laid at the cursor of the reset state is what the next step runs: the load stands for the
loader's hand-over (log entries 8, 16). -/
def Obligations.FirstStepRunsTheTableWord : Prop :=
  ∀ (nbits w : Nat) (i : Instr), decodeTableWord nbits w = some i →
    step (State.reset.withFetchWord nbits w) = exec i (State.reset.withFetchWord nbits w)

/-- R90: a step that serves `decode_next`, directly or for `decode_all`, has exactly the result of the rule's pseudocode
and leaves exactly the state the rule (with R92 and R126) gives. `decodeNextRule` is the transcription. The end of the
stream, the cursor after an error and `halted` are the spec's own decisions D4, D2, D3 (log entries 13, 14). -/
def Obligations.StepIsThePseudocodeOfDecodeNext : Prop :=
  ∀ s : State, Serves s →
    step s = .next (match decodeNextRule s.params s.stream s.cursor with
      | .ok (r, n) => { s with
          cursor := s.cursor + n, requests := s.requests.tail, responses := s.responses ++ [⟨s.port, .ok r⟩] }
      | .error e => { s with
          halted := s.halted || s.port == .decodeAll, requests := s.requests.tail,
          responses := s.responses ++ [⟨s.port, .err e⟩] })

/-- R123: a step at `c < LEN` raises `UnrecognizedOpcode(c, S[c])` if and only if `S[c]` matches neither pattern. -/
def Obligations.UnrecognizedOpcodeExactlyWhenNoPatternMatches : Prop :=
  ∀ (s : State) (b : Byte), Serves s → s.stream.read s.cursor = some b →
    ((∃ t c b', step s = .next t ∧ t.responses = s.responses ++ [⟨s.port, .err (.unrecognizedOpcode c b')⟩]) ↔
      b.extractLsb' 2 6 ≠ s.params.opcRM6 ∧ b.extractLsb' 4 4 ≠ s.params.opcIMM4) ∧
    (∀ t c b', step s = .next t → t.responses = s.responses ++ [⟨s.port, .err (.unrecognizedOpcode c b')⟩] →
      c = s.cursor ∧ b' = b)

/-- R122: a step at `c < LEN` whose leading byte matches a pattern raises `TruncatedInstruction(c)` if and only if
`c + n > LEN`; with the addressing byte of Format RM missing `n` is not yet known and the error is raised. -/
def Obligations.TruncatedExactlyWhenTheInstructionRunsPastTheEnd : Prop :=
  ∀ (s : State) (b0 : Byte), Serves s → s.stream.read s.cursor = some b0 →
    (b0.extractLsb' 2 6 = s.params.opcRM6 ∨ b0.extractLsb' 4 4 = s.params.opcIMM4) →
    ((∃ t, step s = .next t ∧ t.responses = s.responses ++ [⟨s.port, .err (.truncatedInstruction s.cursor)⟩]) ↔
      s.stream.len ≤ s.cursor + 1 ∨
        ∃ b1 n, s.stream.read (s.cursor + 1) = some b1 ∧ lengthOf s.params b0 b1 = some n ∧ s.stream.len < s.cursor + n)

/-- R126: when a step raises an error, the cursor is unchanged and equals the error's offset, the stream is unchanged, no
record goes out, `halted` becomes 1 if `decode_all` made the call, and nothing else changes (the spec's own decisions D2,
D3: log entry 14). -/
def Obligations.ErrorChangesNothingButHalted : Prop :=
  ∀ (s t : State) (e : DecodeError), step s = .next t → t.responses = s.responses ++ [⟨s.port, .err e⟩] →
    e.offset = s.cursor ∧
      t = { s with
        halted := s.halted || s.port == .decodeAll, requests := s.requests.tail,
        responses := s.responses ++ [⟨s.port, .err e⟩] }

/-- R91: a direct `decode_next` at the end of the stream returns `Err(TruncatedInstruction(LEN))` and leaves the cursor:
the spec's own choice D4 (log entry 13). -/
def Obligations.DecodeNextAtTheEndIsTruncated : Prop :=
  ∀ (s : State) (q : List Port), s.requests = .decodeNext :: q → s.cursor = s.stream.len →
    step s = .next { s with
      requests := q,
      responses := s.responses ++ [⟨.decodeNext, .err (.truncatedInstruction s.stream.len)⟩] }

/-- R12, R95: once its loop condition fails `decode_all` produces nothing more. That the request is simply served is the
model's choice (log entry 11). -/
def Obligations.EndedSequenceProducesNothingMore : Prop :=
  ∀ s : State, s.port = .decodeAll → (s.halted = true ∨ s.stream.len ≤ s.cursor) →
    step s = .next { s with requests := s.requests.tail }

/-- R129: a `decode_next` after a failed step returns the same error value, "any number of times", and changes nothing. -/
def Obligations.RetryReturnsTheSameError : Prop :=
  ∀ (s t : State) (e : DecodeError) (q : Port) (k : Nat), s.requests = q :: List.replicate k .decodeNext →
    step s = .next t → t.responses = s.responses ++ [⟨q, .err e⟩] →
    Sys2Proof.core.run k t = .next { t with
      requests := [], responses := t.responses ++ List.replicate k ⟨.decodeNext, .err e⟩ }

/-! ## The whole machine -/

/-- The invariant of a session holds at reset, and at the start of a session on any stream. -/
def Obligations.InvariantHoldsAtTheStart : Prop :=
  Inv State.reset ∧ ∀ (p : Params) (bs : List Byte) (q : List Port), Inv (State.start p bs q)

/-- Every step keeps the invariant: the canonical stream, `cursor ≤ LEN`, the cursor as the sum of the consumed lengths,
only producible records, the shape of the sequence, and what `halted` (the spec's own decision D3: log entry 14) says
about the last element and the cursor. -/
def Obligations.EveryStepKeepsTheInvariant : Prop :=
  ∀ s t : State, Inv s → step s = .next t → Inv t

/-- R93, R120, R127: a step that makes a `decode_next` always ends, in a next state, with exactly one result. At the end of
the stream that is the spec's own choice D4 (log entry 13). A step whose request makes none, one of an ended `decode_all`,
gives no result (R12, R95; the stop after an error is the spec's own decision D3, log entry 14), and that it is a next
state with the request served is the model's choice (log entry 11). -/
def Obligations.EveryStepAnswersWithOneResult : Prop :=
  ∀ s : State, ∃ t, step s = .next t ∧ t.requests = s.requests.tail ∧
    (Serves s → ∃ r, t.responses = s.responses ++ [⟨s.port, r⟩]) ∧ (¬ Serves s → t.responses = s.responses)

/-- R11, R92, R98: a step either leaves the cursor, with no record, or moves it forward by the length, 2, 3 or 4, of the
instruction whose one record goes out, never beyond `LEN` (R92 rests on the spec's own decision D2: log entry 14). -/
def Obligations.CursorMovesOnlyByTheDecodedLength : Prop :=
  ∀ s t : State, step s = .next t →
    (t.cursor = s.cursor ∧ ∀ r, t.responses ≠ s.responses ++ [⟨s.port, .ok r⟩]) ∨
      ∃ (r : Record) (n : Nat), t.responses = s.responses ++ [⟨s.port, .ok r⟩] ∧ t.cursor = s.cursor + n ∧
        n = r.size ∧ (n = 2 ∨ n = 3 ∨ n = 4) ∧ t.cursor ≤ t.stream.len

/-- R13, R21, R27: no step writes the stream, changes its length, or changes a table or another parameter. -/
def Obligations.NoStepChangesStreamOrParameters : Prop :=
  ∀ s t : State, step s = .next t →
    t.params = s.params ∧ t.stream.len = s.stream.len ∧ ∀ a, t.stream.read a = s.stream.read a

/-- R12: `decode_all` sets `halted` when a `decode_next` it called returned an error, and never clears it;
`decode_next` neither reads nor writes it. The bit is the spec's own decision D3 (log entry 14). -/
def Obligations.HaltedIsSetByDecodeAllOnErrorOnly : Prop :=
  ∀ s t : State, step s = .next t →
    (s.halted = true → t.halted = true) ∧
    (s.port = .decodeAll → s.halted = false →
      (t.halted = true ↔ ∃ e, t.responses = s.responses ++ [⟨.decodeAll, .err e⟩])) ∧
    (s.port = .decodeNext →
      t.halted = s.halted ∧ ∀ h : Bool, step { s with halted := h } = .next { t with halted := h })

/-- R77 (b), R100: a successful step depends only on the bytes of the instruction: wherever the same bytes stand, in any
stream, at any offset, for either port, a step gives the same record and moves the cursor as far. -/
def Obligations.RecordDependsOnlyOnTheInstructionBytes : Prop :=
  ∀ (s s' t : State) (r : Record) (n : Nat), step s = .next s' → s'.responses = s.responses ++ [⟨s.port, .ok r⟩] →
    s'.cursor = s.cursor + n → t.params = s.params → Serves t →
    (∀ k, k < n → t.stream.read (t.cursor + k) = s.stream.read (s.cursor + k)) →
    ∃ t', step t = .next t' ∧ t'.responses = t.responses ++ [⟨t.port, .ok r⟩] ∧ t'.cursor = t.cursor + n

/-- R31: a step looks at no more than the bytes at `c` to `c + 3`, and, when it raises `UnrecognizedOpcode`, at none but
the byte at `c`: with another stream that agrees there it does the same. -/
def Obligations.StepReadsAtMostFourBytes : Prop :=
  ∀ (s s' : State) (m : Memory), step s = .next s' →
    ((∀ k, k < 4 → m.read (s.cursor + k) = s.stream.read (s.cursor + k)) →
      step { s with stream := m } = .next { s' with stream := m }) ∧
    (∀ c b, s'.responses = s.responses ++ [⟨s.port, .err (.unrecognizedOpcode c b)⟩] →
      m.read s.cursor = s.stream.read s.cursor → step { s with stream := m } = .next { s' with stream := m })

/-- R96: the guaranteed outcomes of `decode_all` from reset: (a) the empty stream; (b) a concatenation of N valid
encodings; (c) the one-byte streams; (d) in general the final cursor is `LEN` exactly when no error was yielded. `halted`, the stop after an
error and the cursor a truncation leaves are the spec's own decisions D3, D2 (log entry 14); a step with no listed request
asks `decode_all` (log entry 9). -/
def Obligations.GuaranteedOutcomesOfDecodeAll : Prop :=
  (∀ (p : Params) (k : Nat), Sys2Proof.core.run k (State.start p [] []) = .next (State.start p [] [])) ∧
  (∀ (p : Params) (l : List (List Byte × Record)), (∀ x ∈ l, ValidEncoding p x.1 x.2) →
    ∃ t, Sys2Proof.core.run l.length (State.start p (l.flatMap (fun x => x.1)) []) = .next t ∧
      yielded t.responses = l.map (fun x => .ok x.2) ∧ t.cursor = t.stream.len ∧ t.halted = false) ∧
  (∀ (p : Params) (b : Byte) (k : Nat), 1 ≤ k →
    ∃ t, Sys2Proof.core.run k (State.start p [b] []) = .next t ∧ t.cursor = 0 ∧
      yielded t.responses =
        if b.extractLsb' 2 6 = p.opcRM6 ∨ b.extractLsb' 4 4 = p.opcIMM4 then [.err (.truncatedInstruction 0)]
        else [.err (.unrecognizedOpcode 0 b)]) ∧
  (∀ (p : Params) (bs : List Byte) (k : Nat), bs.length / 2 + 1 ≤ k →
    ∃ t, Sys2Proof.core.run k (State.start p bs []) = .next t ∧
      (t.cursor = t.stream.len ↔ ∀ r ∈ yielded t.responses, r.isOk = true))

/-- R99: every run of `decode_all` reaches one of the two final conditions after at most `floor(LEN/2) + 1` steps:
COMPLETE, or STOPPED with the last element an error whose offset is the cursor; and at most one error was yielded (the
stop is the spec's own decision D3: log entry 14). -/
def Obligations.EveryRunReachesAFinalCondition : Prop :=
  ∀ (p : Params) (bs : List Byte) (k : Nat), bs.length / 2 + 1 ≤ k →
    ∃ t, Sys2Proof.core.run k (State.start p bs []) = .next t ∧
      ((t.halted = false ∧ t.cursor = t.stream.len) ∨
        (t.halted = true ∧ ∃ e, (yielded t.responses).getLast? = some (.err e) ∧ e.offset = t.cursor)) ∧
      SequenceShape (yielded t.responses) ∧ (yielded t.responses).length ≤ bs.length / 2 + 1

/-- R95 with the spec's own decision D3 (log entry 14): the sequence a run yields is the one that `decode_all` written as
a recursion ending on an error, with no stop bit, yields. -/
def Obligations.RunYieldsTheRecursionOfDecodeAll : Prop :=
  ∀ (p : Params) (bs : List Byte) (k : Nat), bs.length / 2 + 1 ≤ k →
    ∃ t, Sys2Proof.core.run k (State.start p bs []) = .next t ∧ yielded t.responses = decodeAll p bs

/-- R97, R147: however direct `decode_next` calls are mixed into a traversal by `decode_all`, the instructions are split
between the two consumers: each of N valid encodings goes out once, in order, on the port that asked for it. -/
def Obligations.MixedConsumersSplitTheInstructions : Prop :=
  ∀ (p : Params) (l : List (List Byte × Record)) (q : List Port), (∀ x ∈ l, ValidEncoding p x.1 x.2) →
    q.length = l.length →
    ∃ t, Sys2Proof.core.run l.length (State.start p (l.flatMap (fun x => x.1)) q) = .next t ∧
      t.responses = List.zipWith (fun port x => ⟨port, .ok x.2⟩) q l ∧ t.cursor = t.stream.len ∧ t.requests = []

/-- The canonical form is canonical: two streams in it that read alike everywhere are the same data. -/
def Obligations.EqualReadsAreEqualStreams : Prop :=
  ∀ m m' : Memory, m.wf = true → m'.wf = true → (∀ a, m.read a = m'.read a) → m = m'

/-- R28: a two-byte field is `MemRead(a,1) + 256*MemRead(a+1,1)`, and is absent if either byte is. -/
def Obligations.TwoByteFieldsAreLittleEndian : Prop :=
  ∀ (m : Memory) (a : Nat),
    (∀ lo hi, m.read a = some lo → m.read (a + 1) = some hi →
      ∃ v, m.read16 a = some v ∧ v.toNat = lo.toNat + 256 * hi.toNat) ∧
    (m.len ≤ a + 1 → m.read16 a = none)

/-! ## The formatter -/

/-- R105, R106: `op`, one space, the destination, a comma and one space, the source; a register is its name in `REG_NAME`. -/
def Obligations.LineIsMnemonicDestinationSource : Prop :=
  (∀ (p : Params) (r : Record),
    formatRecord p r = ['m', 'o', 'v', ' '] ++ fmtOperand p r.dest ++ [',', ' '] ++ fmtOperand p r.src) ∧
  (∀ (p : Params) (slot : Slot), fmtOperand p (.reg slot .byte) =
    [(p.regNames.get slot.toFin).byte.first, (p.regNames.get slot.toFin).byte.second]) ∧
  (∀ (p : Params) (slot : Slot), fmtOperand p (.reg slot .word) =
    [(p.regNames.get slot.toFin).word.first, (p.regNames.get slot.toFin).word.second])

/-- R107: an immediate is the unsigned decimal numeral of its value: no sign, no leading zero, and it reads back. -/
def Obligations.ImmediateTextIsItsUnsignedNumeral : Prop :=
  ∀ (p : Params) (v : Word) (w : Width),
    IsNumber (fmtOperand p (.imm v w)) ∧ numeralValue (fmtOperand p (.imm v w)) = v.toNat

/-- R108 to R110: the text of a memory operand: base, index when there is one, and a displacement term for `disp8` and
`disp16` but none for `nodisp`; a negative displacement in the style of the parameter; a direct address alone. The two
styles and the text of a direct address are the spec's own decisions D5, D6, D1 (log entries 6, 20); that a base or index
name has two characters is the model's choice (log entry 26). -/
def Obligations.MemoryOperandText : Prop :=
  ∀ (p : Params) (b : RegName) (x : Option RegName) (d : Word),
    let ix : Text := match x with
      | some n => [' ', '+', ' ', n.first, n.second]
      | none => []
    let term (v : Int) : Text :=
      if v < 0 ∧ p.negDispStyle = .minusMagnitude then [' ', '-', ' '] ++ decInt (-v) else [' ', '+', ' '] ++ decInt v
    fmtOperand p (.mem (some b) x .nodisp d) = ['[', b.first, b.second] ++ ix ++ [']'] ∧
    fmtOperand p (.mem (some b) x .disp8 d) = ['[', b.first, b.second] ++ ix ++ term d.toInt ++ [']'] ∧
    fmtOperand p (.mem (some b) x .disp16 d) = ['[', b.first, b.second] ++ ix ++
      term (if p.disp16Text = .signed then d.toInt else d.toNat) ++ [']'] ∧
    fmtOperand p (.mem none none .direct d) = ['['] ++ decNat d.toNat ++ [']']

/-- R108: the text of an operand with an explicit displacement, a zero one too, is never that of the no-displacement operand
with the same base and index. The term that is printed is stated by `Obligations.MemoryOperandText`. -/
def Obligations.ExplicitDisplacementTextIsNeverTheNoDisplacementText : Prop :=
  ∀ (p : Params) (b x : Option RegName) (d d' : Word),
    fmtOperand p (.mem b x .disp8 d) ≠ fmtOperand p (.mem b x .nodisp d') ∧
      fmtOperand p (.mem b x .disp16 d) ≠ fmtOperand p (.mem b x .nodisp d')

/-- R112: two different records that differ only in the kind of a displacement with the same integer value print the same
text; so the formatter is not injective. -/
def Obligations.DisplacementKindsOfOneValuePrintAlike : Prop :=
  ∀ (p : Params) (b x : Option RegName) (d : Byte) (r : Operand),
    (p.disp16Text = .signed ∨ 0 ≤ d.toInt) →
    formatRecord p ⟨.mov, r, .mem b x .disp8 (d.signExtend 16)⟩ =
        formatRecord p ⟨.mov, r, .mem b x .disp16 (d.signExtend 16)⟩ ∧
      (⟨.mov, r, .mem b x .disp8 (d.signExtend 16)⟩ : Record) ≠ ⟨.mov, r, .mem b x .disp16 (d.signExtend 16)⟩

/-- R7, `dec(n)`: the decimal numeral of a natural number reads back, has no leading zero, and a negative integer is a
`-` before the numeral of its magnitude. -/
def Obligations.DecimalNumeralsReadBack : Prop :=
  (∀ n : Nat, IsNumber (decNat n) ∧ numeralValue (decNat n) = n) ∧
    (∀ n : Nat, decInt n = decNat n) ∧ (∀ n : Nat, decInt (-(n + 1 : Int)) = '-' :: decNat (n + 1))

/-- R113: every line printed for a producible record, with `NEG_DISP_STYLE = plus_signed`, is in the syntax of a line. -/
def Obligations.EveryLineIsInTheSyntax : Prop :=
  ∀ (p : Params) (r : Record), p.negDispStyle = .plusSigned → r.wf p → IsLineText p (formatRecord p r)

/-- R111: worked texts under the defaults, one for each operand shape (the names are PRESUMED: log entries 3, 4). -/
def Obligations.WorkedTextsUnderTheDefaults : Prop :=
  formatRecord Params.default ⟨.mov, .reg 1 .word, .reg 3 .word⟩ = "mov cx, bx".toList ∧
    formatRecord Params.default ((Instr.movMemD0 .word 6 6).record Params.default) = "mov [bp], si".toList ∧
    formatRecord Params.default ((Instr.movMem8D1 .byte 4 0 0).record Params.default) =
      "mov ah, [bx + si + 0]".toList ∧
    formatRecord Params.default ((Instr.movMem16D0 .word 1 2 0xFED4).record Params.default) =
      "mov [bp + si + -300], cx".toList ∧
    formatRecord Params.default ((Instr.movImmByte 1 200).record Params.default) = "mov cl, 200".toList

/-- D6 with R66: the signed and the unsigned reading of a 16-bit displacement "describe the same effective address modulo
2^16": the described address is the sum of base, index and either reading, modulo 2^16 (the modulus is PRESUMED: log entry
23). Descriptive: no step uses the address. -/
def Obligations.BothReadingsDescribeOneAddress : Prop :=
  ∀ (value : RegName → Word) (b : RegName) (x : Option RegName) (d : Word),
    ∃ a, describedAddress value (.mem (some b) x .disp16 d) = some a ∧
      (a.toNat : Int) = ((value b).toNat + ((x.map value).getD 0).toNat + d.toInt) % 65536 ∧
      (a.toNat : Int) = ((value b).toNat + ((x.map value).getD 0).toNat + d.toNat) % 65536
end

