-- ==== Sys2Proof/Laws/Fields.lean ====
section
/-! SUPPORT. Fields and their assembly are inverse to each other: what each field of an assembled byte is, and that a byte is
put together again from its fields (30_encoding.md R42, R43, R45; 20_memory.md R28). -/

namespace Sys2Proof

@[simp] theorem Width.ofFlag_false : Width.ofFlag false = .byte := rfl
@[simp] theorem Width.ofFlag_true : Width.ofFlag true = .word := rfl

@[simp] theorem opcode6_rmLead (p : Params) (d : Bool) (w : Width) : opcode6 (rmLead p d w) = p.opcRM6 := by
  have key : ∀ (o : BitVec 6) (x y : BitVec 1), opcode6 (o ++ x ++ y) = o := by decide
  exact key _ _ _

@[simp] theorem dFlag_rmLead (p : Params) (d : Bool) (w : Width) : dFlag (rmLead p d w) = d := by
  have key : ∀ (o : BitVec 6) (y : BitVec 1), dFlag (o ++ BitVec.ofBool d ++ y) = d := by cases d <;> decide
  exact key _ _

@[simp] theorem wFlagRM_rmLead (p : Params) (d : Bool) (w : Width) : wFlagRM (rmLead p d w) = w := by
  have key : ∀ (o : BitVec 6) (x : BitVec 1), wFlagRM (o ++ x ++ w.flag) = w := by cases w <;> decide
  exact key _ _

@[simp] theorem modField_modRegRm (m : Mode) (reg rm : Slot) : modField (modRegRm m reg rm) = m.bits := by
  have key : ∀ (a : BitVec 2) (b c : BitVec 3), modField (a ++ b ++ c) = a := by decide
  exact key _ _ _

@[simp] theorem regField_modRegRm (m : Mode) (reg rm : Slot) : regField (modRegRm m reg rm) = reg := by
  have key : ∀ (a : BitVec 2) (b c : BitVec 3), regField (a ++ b ++ c) = b := by decide
  exact key _ _ _

@[simp] theorem rmField_modRegRm (m : Mode) (reg rm : Slot) : rmField (modRegRm m reg rm) = rm := by
  have key : ∀ (a : BitVec 2) (b c : BitVec 3), rmField (a ++ b ++ c) = c := by decide
  exact key _ _ _

@[simp] theorem Mode.ofBits_bits (m : Mode) : Mode.ofBits m.bits = m := by cases m <;> decide

@[simp] theorem Mode.bits_ofBits (m : BitVec 2) : (Mode.ofBits m).bits = m := by
  revert m; decide

@[simp] theorem opcode4_irLead (p : Params) (w : Width) (reg : Slot) : opcode4 (irLead p w reg) = p.opcIMM4 := by
  have key : ∀ (o : BitVec 4) (x : BitVec 1) (y : BitVec 3), opcode4 (o ++ x ++ y) = o := by decide
  exact key _ _ _

@[simp] theorem wFlagIR_irLead (p : Params) (w : Width) (reg : Slot) : wFlagIR (irLead p w reg) = w := by
  have key : ∀ (o : BitVec 4) (y : BitVec 3), wFlagIR (o ++ w.flag ++ y) = w := by cases w <;> decide
  exact key _ _

@[simp] theorem regFieldIR_irLead (p : Params) (w : Width) (reg : Slot) : regFieldIR (irLead p w reg) = reg := by
  have key : ∀ (o : BitVec 4) (x : BitVec 1) (y : BitVec 3), regFieldIR (o ++ x ++ y) = y := by decide
  exact key _ _ _

/-- A byte 0 of Format RM is put together again from its fields. -/
theorem rmLead_fields (p : Params) (b : Byte) (h : opcode6 b = p.opcRM6) : rmLead p (dFlag b) (wFlagRM b) = b := by
  have key : ∀ b : Byte, opcode6 b ++ BitVec.ofBool (dFlag b) ++ (wFlagRM b).flag = b := by decide
  rw [rmLead, ← h, key]

/-- A mod/reg/rm byte is put together again from its fields. -/
theorem modRegRm_fields (b : Byte) : modRegRm (Mode.ofBits (modField b)) (regField b) (rmField b) = b := by
  have key : ∀ b : Byte, modField b ++ regField b ++ rmField b = b := by decide
  rw [modRegRm, Mode.bits_ofBits, key]

/-- A byte 0 of Format IR is put together again from its fields. -/
theorem irLead_fields (p : Params) (b : Byte) (h : opcode4 b = p.opcIMM4) : irLead p (wFlagIR b) (regFieldIR b) = b := by
  have key : ∀ b : Byte, opcode4 b ++ (wFlagIR b).flag ++ regFieldIR b = b := by decide
  rw [irLead, ← h, key]

/-- A two-byte field is `lo + 256*hi` (R28). -/
theorem le16_toNat (lo hi : Byte) : (le16 lo hi).toNat = lo.toNat + 256 * hi.toNat := by
  rw [le16, BitVec.toNat_append, Nat.shiftLeft_eq, Nat.mul_comm, ← Nat.two_pow_add_eq_or_of_lt lo.isLt]
  omega

@[simp] theorem loByte_le16 (lo hi : Byte) : loByte (le16 lo hi) = lo := by
  apply BitVec.eq_of_toNat_eq
  have := le16_toNat lo hi
  simp only [loByte, BitVec.extractLsb'_toNat, this]
  have := lo.isLt
  omega

@[simp] theorem hiByte_le16 (lo hi : Byte) : hiByte (le16 lo hi) = hi := by
  apply BitVec.eq_of_toNat_eq
  have := le16_toNat lo hi
  simp only [hiByte, BitVec.extractLsb'_toNat, this, Nat.shiftRight_eq_div_pow]
  have := lo.isLt
  have := hi.isLt
  omega

@[simp] theorem le16_bytes (v : Word) : le16 (loByte v) (hiByte v) = v := by
  apply BitVec.eq_of_toNat_eq
  rw [le16_toNat]
  simp only [loByte, hiByte, BitVec.extractLsb'_toNat, Nat.shiftRight_eq_div_pow]
  have := v.isLt
  omega

/-- The sign extension keeps the signed meaning (R7). -/
theorem signed16_sext16 (b : Byte) : signed16 (sext16 b) = b.toInt := by
  revert b; decide

/-- The zero extension keeps the unsigned value (R7). -/
theorem zext16_toNat (b : Byte) : (zext16 b).toNat = b.toNat := by
  simp only [zext16, BitVec.toNat_setWidth]
  have := b.isLt
  omega

end Sys2Proof
end

