-- ==== Sys2Proof/Laws/Decode.lean ====
section
/-! SUPPORT. What the decoder can answer, said once per function (30_encoding.md R44 to R46, R51; 41_mov_rm_reg.md R70). -/

namespace Sys2Proof

/-- What `withByte` does: one byte is taken, or none is there. -/
theorem withByte_cases (k : Byte → Instr) (bs : List Byte) :
    (bs = [] ∧ withByte k bs = .truncated) ∨ ∃ b rest, bs = b :: rest ∧ withByte k bs = .ok (k b) rest := by
  cases bs with
  | nil => exact .inl ⟨rfl, rfl⟩
  | cons b rest => exact .inr ⟨b, rest, rfl, rfl⟩

/-- What `withWord` does: two bytes are taken, low first, or fewer are there. -/
theorem withWord_cases (k : Word → Instr) (bs : List Byte) :
    (bs.length < 2 ∧ withWord k bs = .truncated) ∨
      ∃ lo hi rest, bs = lo :: hi :: rest ∧ withWord k bs = .ok (k (le16 lo hi)) rest := by
  rcases bs with _ | ⟨lo, _ | ⟨hi, rest⟩⟩
  · exact .inl ⟨by decide, rfl⟩
  · exact .inl ⟨by simp, rfl⟩
  · exact .inr ⟨lo, hi, rest, rfl, rfl⟩

/-- What `classify` does (R46). -/
theorem classify_cases (p : Params) (b : Byte) :
    (opcode6 b = p.opcRM6 ∧ classify p b = some .rm) ∨
      (opcode6 b ≠ p.opcRM6 ∧ opcode4 b = p.opcIMM4 ∧ classify p b = some .ir) ∨
      (opcode6 b ≠ p.opcRM6 ∧ opcode4 b ≠ p.opcIMM4 ∧ classify p b = none) := by
  by_cases h6 : opcode6 b = p.opcRM6
  · exact .inl ⟨h6, by simp [classify, h6]⟩
  · by_cases h4 : opcode4 b = p.opcIMM4
    · exact .inr (.inl ⟨h6, h4, by simp [classify, h6, h4]⟩)
    · exact .inr (.inr ⟨h6, h4, by simp [classify, h6, h4]⟩)

/-- When `classify` answers Format RM: pattern 1 is tested first (R46, R47). -/
theorem classify_eq_rm_iff (p : Params) (b : Byte) : classify p b = some .rm ↔ opcode6 b = p.opcRM6 := by
  rcases classify_cases p b with ⟨h6, h⟩ | ⟨h6, -, h⟩ | ⟨h6, -, h⟩ <;> simp [h, h6]

@[simp] theorem movReg_length (d : Bool) (w : Width) (reg rm : Slot) : (movReg d w reg rm).length = 2 := by
  cases d <;> rfl
@[simp] theorem movMem_length (d : Bool) (w : Width) (reg rm : Slot) : (movMem d w reg rm).length = 2 := by
  cases d <;> rfl
@[simp] theorem movMem8_length (d : Bool) (w : Width) (reg rm : Slot) (x : Byte) :
    (movMem8 d w reg rm x).length = 3 := by
  cases d <;> rfl
@[simp] theorem movMem16_length (d : Bool) (w : Width) (reg rm : Slot) (x : Word) :
    (movMem16 d w reg rm x).length = 4 := by
  cases d <;> rfl
@[simp] theorem movDirect_length (d : Bool) (w : Width) (reg : Slot) (x : Word) :
    (movDirect d w reg x).length = 4 := by
  cases d <;> rfl

/-- The decoder on a leading byte of Format RM. -/
theorem decode_rm {p : Params} {b0 : Byte} (h : opcode6 b0 = p.opcRM6) (rest : List Byte) :
    decode p (b0 :: rest) = decodeRM p (dFlag b0) (wFlagRM b0) rest := by
  simp [decode, classify, h]

/-- The decoder on a leading byte of Format IR. -/
theorem decode_ir {p : Params} {b0 : Byte} (h6 : opcode6 b0 ≠ p.opcRM6) (h4 : opcode4 b0 = p.opcIMM4)
    (rest : List Byte) : decode p (b0 :: rest) = decodeIR (wFlagIR b0) (regFieldIR b0) rest := by
  simp [decode, classify, h6, h4]

/-- The decoder on a leading byte that matches no pattern. -/
theorem decode_none {p : Params} {b0 : Byte} (h6 : opcode6 b0 ≠ p.opcRM6) (h4 : opcode4 b0 ≠ p.opcIMM4)
    (rest : List Byte) : decode p (b0 :: rest) = .unrecognized b0 := by
  simp [decode, classify, h6, h4]

/-- What `decodeRM` can answer (R70): truncated, or one of the five forms with the bytes it took; each form says when. -/
theorem decodeRM_cases (p : Params) (d : Bool) (w : Width) (bs : List Byte) :
    decodeRM p d w bs = .truncated ∨
      ∃ b1 rest, bs = b1 :: rest ∧
        ((modField b1 = 0b11 ∧ decodeRM p d w bs = .ok (movReg d w (regField b1) (rmField b1)) rest) ∨
          (modField b1 = 0b00 ∧ ¬ (p.directAddr = true ∧ rmField b1 = p.directRM) ∧
            decodeRM p d w bs = .ok (movMem d w (regField b1) (rmField b1)) rest) ∨
          (modField b1 = 0b00 ∧ p.directAddr = true ∧ rmField b1 = p.directRM ∧ ∃ lo hi rest', rest = lo :: hi :: rest' ∧
            decodeRM p d w bs = .ok (movDirect d w (regField b1) (le16 lo hi)) rest') ∨
          (modField b1 = 0b01 ∧ ∃ x rest', rest = x :: rest' ∧
            decodeRM p d w bs = .ok (movMem8 d w (regField b1) (rmField b1) x) rest') ∨
          (modField b1 = 0b10 ∧ ∃ lo hi rest', rest = lo :: hi :: rest' ∧
            decodeRM p d w bs = .ok (movMem16 d w (regField b1) (rmField b1) (le16 lo hi)) rest')) := by
  cases bs with
  | nil => exact .inl rfl
  | cons b1 rest =>
    have hm := Mode.bits_ofBits (modField b1)
    rw [decodeRM]
    cases h : Mode.ofBits (modField b1) <;> rw [h] at hm
    case register => exact .inr ⟨b1, rest, rfl, .inl ⟨hm.symm, rfl⟩⟩
    case noDisp =>
      by_cases hd : p.directAddr = true ∧ rmField b1 = p.directRM
      · rcases withWord_cases (movDirect d w (regField b1)) rest with ⟨-, ht⟩ | ⟨lo, hi, rest', hr, ht⟩
        · exact .inl (by simp [hd, ht])
        · exact .inr ⟨b1, rest, rfl, .inr (.inr (.inl ⟨hm.symm, hd.1, hd.2, lo, hi, rest', hr, by simp [hd, ht]⟩))⟩
      · refine .inr ⟨b1, rest, rfl, .inr (.inl ⟨hm.symm, hd, ?_⟩)⟩
        have : (p.directAddr && rmField b1 == p.directRM) = false := by simpa using hd
        simp [this]
    case disp8 =>
      rcases withByte_cases (movMem8 d w (regField b1) (rmField b1)) rest with ⟨-, ht⟩ | ⟨x, rest', hr, ht⟩
      · exact .inl ht
      · exact .inr ⟨b1, rest, rfl, .inr (.inr (.inr (.inl ⟨hm.symm, x, rest', hr, ht⟩)))⟩
    case disp16 =>
      rcases withWord_cases (movMem16 d w (regField b1) (rmField b1)) rest with ⟨-, ht⟩ | ⟨lo, hi, rest', hr, ht⟩
      · exact .inl ht
      · exact .inr ⟨b1, rest, rfl, .inr (.inr (.inr (.inr ⟨hm.symm, lo, hi, rest', hr, ht⟩)))⟩

/-- What `decodeIR` can answer (R87): truncated, or the form of the width flag with the bytes it took. -/
theorem decodeIR_cases (w : Width) (reg : Slot) (bs : List Byte) :
    decodeIR w reg bs = .truncated ∨
      (w = .byte ∧ ∃ x rest, bs = x :: rest ∧ decodeIR w reg bs = .ok (.movImmByte reg x) rest) ∨
      (w = .word ∧ ∃ lo hi rest, bs = lo :: hi :: rest ∧ decodeIR w reg bs = .ok (.movImmWord reg (le16 lo hi)) rest) := by
  cases w with
  | byte =>
    rcases withByte_cases (fun b => .movImmByte reg b) bs with ⟨-, h⟩ | ⟨x, rest, hr, h⟩
    · exact .inl h
    · exact .inr (.inl ⟨rfl, x, rest, hr, h⟩)
  | word =>
    rcases withWord_cases (fun v => .movImmWord reg v) bs with ⟨-, h⟩ | ⟨lo, hi, rest, hr, h⟩
    · exact .inl h
    · exact .inr (.inr ⟨rfl, lo, hi, rest, hr, h⟩)

/-- An instruction is 2, 3 or 4 bytes long (R41). -/
theorem Instr.length_bounds (i : Instr) : 2 ≤ i.length ∧ i.length ≤ 4 := by
  cases i <;> simp [Instr.length]

/-- The decoder takes exactly the instruction's length from the head of the bytes. -/
theorem decode_ok_length {p : Params} {bs : List Byte} {i : Instr} {rest : List Byte} (h : decode p bs = .ok i rest) :
    ∃ e, bs = e ++ rest ∧ e.length = i.length := by
  cases bs with
  | nil => simp [decode] at h
  | cons b0 tl =>
    rcases classify_cases p b0 with ⟨h6, -⟩ | ⟨h6, h4, -⟩ | ⟨h6, h4, -⟩
    · rw [decode_rm h6] at h
      rcases decodeRM_cases p (dFlag b0) (wFlagRM b0) tl with ht | ⟨b1, r1, htl, hc⟩
      · simp [ht] at h
      · rcases hc with ⟨-, he⟩ | ⟨-, -, he⟩ | ⟨-, -, -, lo, hi, r2, hr, he⟩ | ⟨-, x, r2, hr, he⟩ |
          ⟨-, lo, hi, r2, hr, he⟩ <;> rw [he] at h <;> obtain ⟨rfl, rfl⟩ := Decoded.ok.inj h
        · exact ⟨[b0, b1], by simp [htl], by simp⟩
        · exact ⟨[b0, b1], by simp [htl], by simp⟩
        · exact ⟨[b0, b1, lo, hi], by simp [htl, hr], by simp⟩
        · exact ⟨[b0, b1, x], by simp [htl, hr], by simp⟩
        · exact ⟨[b0, b1, lo, hi], by simp [htl, hr], by simp⟩
    · rw [decode_ir h6 h4] at h
      rcases decodeIR_cases (wFlagIR b0) (regFieldIR b0) tl with ht | ⟨-, x, r2, hr, he⟩ | ⟨-, lo, hi, r2, hr, he⟩
      · simp [ht] at h
      · rw [he] at h
        obtain ⟨rfl, rfl⟩ := Decoded.ok.inj h
        exact ⟨[b0, x], by simp [hr], rfl⟩
      · rw [he] at h
        obtain ⟨rfl, rfl⟩ := Decoded.ok.inj h
        exact ⟨[b0, lo, hi], by simp [hr], rfl⟩
    · rw [decode_none h6 h4] at h
      cases h

end Sys2Proof
end

