-- ==== Sys2Proof/Laws/Memory.lean ====
section
/-! SUPPORT. The stream as data: every operation keeps the canonical form, reads after loads and writes, and what the
window of a step holds (20_memory.md R25, R26, R31). -/

namespace Sys2Proof.Machine

/-! ## The canonical form -/

/-- A canonical list above an offset is canonical above any lower one. -/
theorem Memory.cellsWf_mono {len : Nat} {lo lo' : Nat} {cells : List Host.Cell} (h : lo' ≤ lo)
    (hw : Memory.cellsWf len lo cells = true) : Memory.cellsWf len lo' cells = true := by
  cases cells with
  | nil => rfl
  | cons c rest =>
    obtain ⟨a, b⟩ := c
    simp only [Memory.cellsWf, Bool.and_eq_true, decide_eq_true_eq] at hw ⊢
    exact ⟨⟨⟨by omega, hw.1.1.2⟩, hw.1.2⟩, hw.2⟩

/-- A canonical list stays canonical when the stream gets longer. -/
theorem Memory.cellsWf_longer {len len' : Nat} (h : len ≤ len') :
    ∀ (cells : List Host.Cell) (lo : Nat), Memory.cellsWf len lo cells = true → Memory.cellsWf len' lo cells = true
  | [], _, _ => rfl
  | (a, b) :: rest, lo, hw => by
    simp only [Memory.cellsWf, Bool.and_eq_true, decide_eq_true_eq] at hw ⊢
    exact ⟨⟨⟨hw.1.1.1, by omega⟩, hw.1.2⟩, Memory.cellsWf_longer h rest _ hw.2⟩

/-- The cells of a byte sequence are canonical. -/
theorem Memory.cellsOf_wf (len : Nat) :
    ∀ (bs : List Byte) (a lo : Nat), lo ≤ a → a + bs.length ≤ len → Memory.cellsWf len lo (Memory.cellsOf a bs) = true
  | [], _, _, _, _ => rfl
  | b :: rest, a, lo, hlo, hlen => by
    simp only [List.length_cons] at hlen
    by_cases hb : b = Memory.unlisted
    · rw [Memory.cellsOf, if_pos hb]
      exact Memory.cellsOf_wf len rest (a + 1) lo (by omega) (by omega)
    · rw [Memory.cellsOf, if_neg hb]
      simp only [Memory.cellsWf, Bool.and_eq_true, decide_eq_true_eq, bne_iff_ne]
      exact ⟨⟨⟨hlo, by omega⟩, hb⟩, Memory.cellsOf_wf len rest (a + 1) (a + 1) (by omega) (by omega)⟩

/-- The stream of a byte sequence is canonical. -/
theorem Memory.load_wf (bs : List Byte) : (Memory.load bs).wf = true :=
  Memory.cellsOf_wf bs.length bs 0 0 (by omega) (by omega)

/-- Replacing a byte keeps the canonical form. -/
theorem Memory.insert_wf {len a : Nat} {b : Byte} (ha : a < len) :
    ∀ (cells : List Host.Cell) (lo : Nat), lo ≤ a → Memory.cellsWf len lo cells = true →
      Memory.cellsWf len lo (Memory.insert a b cells) = true
  | [], lo, hlo, _ => by
    by_cases hb : b = Memory.unlisted
    · simp [Memory.insert, hb, Memory.cellsWf]
    · simp only [Memory.insert, if_neg hb, Memory.cellsWf, Bool.and_eq_true, decide_eq_true_eq, bne_iff_ne]
      exact ⟨⟨⟨hlo, ha⟩, hb⟩, trivial⟩
  | (k, c) :: rest, lo, hlo, hw => by
    simp only [Memory.cellsWf, Bool.and_eq_true, decide_eq_true_eq] at hw
    obtain ⟨⟨⟨hk, hkl⟩, hc⟩, hr⟩ := hw
    rw [Memory.insert]
    split
    · next hlt =>
      simp only [Memory.cellsWf, Bool.and_eq_true, decide_eq_true_eq]
      exact ⟨⟨⟨hk, hkl⟩, hc⟩, Memory.insert_wf ha rest (k + 1) (by omega) hr⟩
    · split
      · next heq =>
        split
        · exact Memory.cellsWf_mono (by omega) hr
        · next hb =>
          simp only [Memory.cellsWf, Bool.and_eq_true, decide_eq_true_eq, bne_iff_ne]
          exact ⟨⟨⟨hlo, ha⟩, hb⟩, by rw [← heq]; exact hr⟩
      · split
        · simp only [Memory.cellsWf, Bool.and_eq_true, decide_eq_true_eq]
          exact ⟨⟨⟨hk, hkl⟩, hc⟩, hr⟩
        · next hb =>
          simp only [Memory.cellsWf, Bool.and_eq_true, decide_eq_true_eq, bne_iff_ne]
          refine ⟨⟨⟨hlo, ha⟩, hb⟩, ⟨⟨?_, hkl⟩, by simpa using hc⟩, hr⟩
          omega

/-- The loader's write keeps the canonical form. -/
theorem Memory.write_wf {m : Memory} (a : Nat) (b : Byte) (h : m.wf = true) : (m.write a b).wf = true :=
  Memory.insert_wf (len := max m.len (a + 1)) (by omega) m.cells 0 (by omega)
    (Memory.cellsWf_longer (by omega) m.cells 0 h)

/-- The loader's write of a byte sequence keeps the canonical form. -/
theorem Memory.writeBytes_wf : ∀ (bs : List Byte) (m : Memory) (a : Nat), m.wf = true → (m.writeBytes a bs).wf = true
  | [], _, _, h => h
  | b :: rest, m, a, h => Memory.writeBytes_wf rest (m.write a b) (a + 1) (Memory.write_wf a b h)

/-! ## Reads -/

/-- An offset below `LEN` holds a byte. -/
theorem Memory.read_of_lt {m : Memory} {a : Nat} (h : a < m.len) : m.read a = some (Memory.lookup m.cells a) := by
  rw [Memory.read, if_pos h]

/-- An offset at or beyond `LEN` holds nothing. -/
theorem Memory.read_of_ge {m : Memory} {a : Nat} (h : m.len ≤ a) : m.read a = none := by
  rw [Memory.read, if_neg (by omega)]

/-- A read answers a byte exactly below `LEN`. -/
theorem Memory.read_isSome_iff {m : Memory} {a : Nat} : (m.read a).isSome = true ↔ a < m.len := by
  by_cases h : a < m.len <;> simp [Memory.read, h]

/-- What a read answered lies below `LEN`. -/
theorem Memory.lt_of_read {m : Memory} {a : Nat} {b : Byte} (h : m.read a = some b) : a < m.len :=
  Memory.read_isSome_iff.mp (by simp [h])

/-- The cells of a byte sequence hold it. -/
theorem Memory.lookup_cellsOf :
    ∀ (bs : List Byte) (a k : Nat), Memory.lookup (Memory.cellsOf a bs) (a + k) = (bs[k]?).getD Memory.unlisted ∧
      ∀ j, j < a → Memory.lookup (Memory.cellsOf a bs) j = Memory.unlisted
  | [], _, _ => by simp [Memory.cellsOf, Memory.lookup]
  | b :: rest, a, k => by
    have ih := Memory.lookup_cellsOf rest (a + 1)
    by_cases hb : b = Memory.unlisted
    · rw [Memory.cellsOf, if_pos hb]
      refine ⟨?_, fun j hj => (ih 0).2 j (by omega)⟩
      cases k with
      | zero => simpa [hb] using (ih 0).2 a (by omega)
      | succ k => simpa [Nat.add_assoc, Nat.add_comm 1 k] using (ih k).1
    · rw [Memory.cellsOf, if_neg hb]
      refine ⟨?_, fun j hj => ?_⟩
      · cases k with
        | zero => simp [Memory.lookup]
        | succ k =>
          rw [Memory.lookup, if_neg (by omega)]
          simpa [Nat.add_assoc, Nat.add_comm 1 k] using (ih k).1
      · rw [Memory.lookup, if_neg (by omega)]
        exact (ih 0).2 j (by omega)

@[simp] theorem Memory.load_len (bs : List Byte) : (Memory.load bs).len = bs.length := rfl

/-- The stream of a byte sequence reads as that sequence. -/
theorem Memory.read_load (bs : List Byte) (a : Nat) : (Memory.load bs).read a = bs[a]? := by
  by_cases h : a < bs.length
  · rw [Memory.read_of_lt h]
    have := (Memory.lookup_cellsOf bs 0 a).1
    rw [Nat.zero_add] at this
    simp [Memory.load, this, h]
  · rw [Memory.read_of_ge (by simp; omega), List.getElem?_eq_none (by omega)]

/-- The byte at an offset after `insert`. -/
theorem Memory.lookup_insert (a : Nat) (b : Byte) (j : Nat) {len : Nat} :
    ∀ (cells : List Host.Cell) (lo : Nat), Memory.cellsWf len lo cells = true →
      Memory.lookup (Memory.insert a b cells) j = if j = a then b else Memory.lookup cells j
  | [], _, _ => by
    by_cases hb : b = Memory.unlisted
    · simp [Memory.insert, hb, Memory.lookup]
    · simp only [Memory.insert, if_neg hb, Memory.lookup]
      split <;> split <;> simp_all
  | (k, c) :: rest, lo, hw => by
    simp only [Memory.cellsWf, Bool.and_eq_true, decide_eq_true_eq] at hw
    obtain ⟨-, hr⟩ := hw
    have ih := Memory.lookup_insert a b j rest (k + 1) hr
    have low : ∀ (l : List Host.Cell) (n i : Nat), Memory.cellsWf len n l = true → i < n →
        Memory.lookup l i = Memory.unlisted := by
      intro l
      induction l with
      | nil => intros; rfl
      | cons x xs ihx =>
        intro n i hx hi
        obtain ⟨p, q⟩ := x
        simp only [Memory.cellsWf, Bool.and_eq_true, decide_eq_true_eq] at hx
        rw [Memory.lookup, if_neg (by omega)]
        exact ihx _ _ hx.2 (by omega)
    rw [Memory.insert]
    split
    · by_cases hj : j = a
      · rw [Memory.lookup, if_neg (show ¬ k = j by omega), ih, if_pos hj, if_pos hj]
      · simp only [Memory.lookup, ih, if_neg hj]
    · split
      · next hka =>
        split
        · next hb =>
          by_cases hj : j = a
          · simp [hj, hb, low rest (k + 1) a hr (by omega)]
          · simp [Memory.lookup, hj, show ¬ k = j by omega]
        · by_cases hj : j = a
          · rw [Memory.lookup, if_pos hj.symm, if_pos hj]
          · simp only [Memory.lookup, if_neg hj, if_neg (show ¬ a = j by omega), if_neg (show ¬ k = j by omega)]
      · split
        · next hb =>
          by_cases hj : j = a
          · rw [if_pos hj, hb, Memory.lookup, if_neg (by omega)]
            exact low rest (k + 1) j hr (by omega)
          · rw [if_neg hj]
        · by_cases hj : j = a
          · rw [Memory.lookup, if_pos hj.symm, if_pos hj]
          · rw [Memory.lookup, if_neg (show ¬ a = j by omega), if_neg hj]

/-- A read after the loader's write: the byte at its place; elsewhere what stood there, and 0x00 in a gap the write
opens between the old end and its place. -/
theorem Memory.read_write {m : Memory} (a j : Nat) (b : Byte) (h : m.wf = true) :
    (m.write a b).read j =
      if j = a then some b else if j < max m.len (a + 1) then some (Memory.lookup m.cells j) else none := by
  have hl := Memory.lookup_insert a b j m.cells 0 h
  by_cases hj : j = a
  · rw [if_pos hj] at hl
    simp only [Memory.read, Memory.write, hl, if_pos hj, if_pos (show j < max m.len (a + 1) by omega)]
  · simp only [Memory.read, Memory.write, hl, hj, if_false]

/-- The loader's write of a byte sequence leaves the bytes below it alone. -/
theorem Memory.read_writeBytes_below :
    ∀ (bs : List Byte) (m : Memory) (a j : Nat), m.wf = true → j < m.len → j < a →
      (m.writeBytes a bs).read j = m.read j
  | [], _, _, _, _, _, _ => rfl
  | b :: rest, m, a, j, h, hl, ha => by
    have hw := Memory.read_write a j b h
    rw [if_neg (by omega), if_pos (by omega)] at hw
    have hlen : j < (m.write a b).len := Memory.lt_of_read hw
    rw [Memory.writeBytes, Memory.read_writeBytes_below rest _ _ _ (Memory.write_wf a b h) hlen (by omega), hw,
      Memory.read_of_lt hl]

/-- The loader's write of a byte sequence puts it there. -/
theorem Memory.read_writeBytes :
    ∀ (bs : List Byte) (m : Memory) (a k : Nat), m.wf = true → k < bs.length →
      (m.writeBytes a bs).read (a + k) = bs[k]?
  | [], _, _, _, _, hk => by simp at hk
  | b :: rest, m, a, 0, h, _ => by
    have hw := Memory.read_write a a b h
    rw [if_pos rfl] at hw
    show ((m.write a b).writeBytes (a + 1) rest).read a = some b
    rw [Memory.read_writeBytes_below rest _ _ _ (Memory.write_wf a b h) (Memory.lt_of_read hw) (by omega), hw]
  | b :: rest, m, a, k + 1, h, hk => by
    have ih := Memory.read_writeBytes rest (m.write a b) (a + 1) k (Memory.write_wf a b h) (by simpa using hk)
    rw [Memory.writeBytes, show a + (k + 1) = a + 1 + k by omega, ih]
    rfl

/-! ## The window -/

/-- The window has at most `n` bytes. -/
theorem Memory.window_length_le (m : Memory) : ∀ (n a : Nat), (m.window a n).length ≤ n
  | 0, _ => by simp [Memory.window]
  | n + 1, a => by
    have := m.window_length_le n (a + 1)
    rw [Memory.window]
    cases m.read a <;> simp; omega

/-- The window holds exactly the present ones of its `n` offsets. -/
theorem Memory.window_getElem? (m : Memory) :
    ∀ (n a k : Nat), (m.window a n)[k]? = if k < n then m.read (a + k) else none
  | 0, _, _ => by simp [Memory.window]
  | n + 1, a, k => by
    rw [Memory.window]
    cases hr : m.read a with
    | none =>
      have hlen : m.len ≤ a := by
        by_contra hc
        simp [Memory.read_of_lt (Nat.lt_of_not_le hc)] at hr
      simp [Memory.read_of_ge (show m.len ≤ a + k by omega)]
    | some b =>
      cases k with
      | zero => simp [hr]
      | succ k =>
        have ih := m.window_getElem? n (a + 1) k
        simp only [List.getElem?_cons_succ, ih, Nat.add_lt_add_iff_right]
        rw [show a + 1 + k = a + (k + 1) by omega]

/-- The length of the window: `n`, or what is left of the stream. -/
theorem Memory.window_length (m : Memory) : ∀ (n a : Nat), (m.window a n).length = min n (m.len - a)
  | 0, _ => by simp [Memory.window]
  | n + 1, a => by
    rw [Memory.window]
    by_cases h : a < m.len
    · rw [Memory.read_of_lt h]
      simp only [List.length_cons, m.window_length n (a + 1)]
      omega
    · rw [Memory.read_of_ge (by omega)]
      simp; omega

/-- The window of a loaded stream is a part of the sequence. -/
theorem Memory.window_load (bs : List Byte) (n a : Nat) : (Memory.load bs).window a n = (bs.drop a).take n := by
  apply List.ext_getElem?
  intro k
  rw [Memory.window_getElem?, Memory.read_load, List.getElem?_take, List.getElem?_drop]

/-- The window where the loader wrote a byte sequence of its length is that sequence. -/
theorem Memory.window_writeBytes {m : Memory} (bs : List Byte) (a : Nat) (h : m.wf = true) :
    (m.writeBytes a bs).window a bs.length = bs := by
  apply List.ext_getElem?
  intro k
  rw [Memory.window_getElem?]
  by_cases hk : k < bs.length
  · rw [if_pos hk, Memory.read_writeBytes bs m a k h hk]
  · rw [if_neg hk, List.getElem?_eq_none (by omega)]

end Sys2Proof.Machine
end

