-- ==== Sys2Proof/Laws/State.lean ====
section
/-! SUPPORT. One lemma per field per update of the state: what `respond`, `emit`, `raise`, `endOfSequence`, `start` and
`withFetchWord` leave in each field. All hold by unfolding the record once. -/

namespace Sys2Proof.Machine

@[simp] theorem State.respond_params (s : State) (r : Result) : (s.respond r).params = s.params := rfl
@[simp] theorem State.respond_stream (s : State) (r : Result) : (s.respond r).stream = s.stream := rfl
@[simp] theorem State.respond_cursor (s : State) (r : Result) : (s.respond r).cursor = s.cursor := rfl
@[simp] theorem State.respond_halted (s : State) (r : Result) : (s.respond r).halted = s.halted := rfl
@[simp] theorem State.respond_requests (s : State) (r : Result) : (s.respond r).requests = s.requests.tail := rfl
@[simp] theorem State.respond_responses (s : State) (r : Result) :
    (s.respond r).responses = s.responses ++ [⟨s.port, r⟩] := rfl

@[simp] theorem State.emit_params (s : State) (n : Nat) (r : Record) : (s.emit n r).params = s.params := rfl
@[simp] theorem State.emit_stream (s : State) (n : Nat) (r : Record) : (s.emit n r).stream = s.stream := rfl
@[simp] theorem State.emit_cursor (s : State) (n : Nat) (r : Record) : (s.emit n r).cursor = s.cursor + n := rfl
@[simp] theorem State.emit_halted (s : State) (n : Nat) (r : Record) : (s.emit n r).halted = s.halted := rfl
@[simp] theorem State.emit_requests (s : State) (n : Nat) (r : Record) : (s.emit n r).requests = s.requests.tail := rfl
@[simp] theorem State.emit_responses (s : State) (n : Nat) (r : Record) :
    (s.emit n r).responses = s.responses ++ [⟨s.port, .ok r⟩] := rfl

@[simp] theorem State.raise_params (s : State) (e : DecodeError) : (s.raise e).params = s.params := rfl
@[simp] theorem State.raise_stream (s : State) (e : DecodeError) : (s.raise e).stream = s.stream := rfl
@[simp] theorem State.raise_cursor (s : State) (e : DecodeError) : (s.raise e).cursor = s.cursor := rfl
@[simp] theorem State.raise_halted (s : State) (e : DecodeError) :
    (s.raise e).halted = (s.halted || s.port == .decodeAll) := rfl
@[simp] theorem State.raise_requests (s : State) (e : DecodeError) : (s.raise e).requests = s.requests.tail := rfl
@[simp] theorem State.raise_responses (s : State) (e : DecodeError) :
    (s.raise e).responses = s.responses ++ [⟨s.port, .err e⟩] := rfl

@[simp] theorem State.endOfSequence_params (s : State) : s.endOfSequence.params = s.params := rfl
@[simp] theorem State.endOfSequence_stream (s : State) : s.endOfSequence.stream = s.stream := rfl
@[simp] theorem State.endOfSequence_cursor (s : State) : s.endOfSequence.cursor = s.cursor := rfl
@[simp] theorem State.endOfSequence_halted (s : State) : s.endOfSequence.halted = s.halted := rfl
@[simp] theorem State.endOfSequence_requests (s : State) : s.endOfSequence.requests = s.requests.tail := rfl
@[simp] theorem State.endOfSequence_responses (s : State) : s.endOfSequence.responses = s.responses := rfl

@[simp] theorem State.start_params (p : Params) (bs : List Byte) (q : List Port) :
    (State.start p bs q).params = p := rfl
@[simp] theorem State.start_stream (p : Params) (bs : List Byte) (q : List Port) :
    (State.start p bs q).stream = Memory.load bs := rfl
@[simp] theorem State.start_cursor (p : Params) (bs : List Byte) (q : List Port) :
    (State.start p bs q).cursor = 0 := rfl
@[simp] theorem State.start_halted (p : Params) (bs : List Byte) (q : List Port) :
    (State.start p bs q).halted = false := rfl
@[simp] theorem State.start_requests (p : Params) (bs : List Byte) (q : List Port) :
    (State.start p bs q).requests = q := rfl
@[simp] theorem State.start_responses (p : Params) (bs : List Byte) (q : List Port) :
    (State.start p bs q).responses = [] := rfl

@[simp] theorem State.withFetchWord_cursor (s : State) (nbits w : Nat) :
    (s.withFetchWord nbits w).cursor = s.cursor := rfl
@[simp] theorem State.withFetchWord_halted (s : State) (nbits w : Nat) :
    (s.withFetchWord nbits w).halted = false := rfl
@[simp] theorem State.withFetchWord_requests (s : State) (nbits w : Nat) :
    (s.withFetchWord nbits w).requests = s.requests := rfl
@[simp] theorem State.withFetchWord_responses (s : State) (nbits w : Nat) :
    (s.withFetchWord nbits w).responses = s.responses := rfl
@[simp] theorem State.withFetchWord_stream (s : State) (nbits w : Nat) :
    (s.withFetchWord nbits w).stream = s.stream.writeBytes s.cursor (tableBytes nbits w) := rfl
@[simp] theorem State.withFetchWord_directAddr (s : State) (nbits w : Nat) :
    (s.withFetchWord nbits w).params.directAddr = (s.params.directAddr || tableWordIsDirect nbits w) := rfl

/-- With no request listed the step serves `decode_all`. -/
theorem State.port_of_requests_nil {s : State} (h : s.requests = []) : s.port = .decodeAll := by
  simp [State.port, h]

/-- With a request listed the step serves the first. -/
theorem State.port_of_requests_cons {s : State} {q : Port} {qs : List Port} (h : s.requests = q :: qs) : s.port = q := by
  simp [State.port, h]

end Sys2Proof.Machine
end

