-- ==== Sys2Proof/Laws/Ops.lean ====
section
/-! SUPPORT. What the shared operations and the step can do, said once: `complete`, `fetch`, `step`, and the state's
window. -/

namespace Sys2Proof.Machine

/-- `complete` answers a next state: the emit, when the instruction's bytes are present (R92, R122). -/
theorem State.complete_of_fits {s : State} {n : Nat} (r : Record) (h : s.cursor + n ≤ s.stream.len) :
    s.complete n r = .next (s.emit n r) := by
  rw [State.complete, if_pos h]

/-- `complete` answers a next state: the raised error, when a byte is missing (R122). -/
theorem State.complete_of_missing {s : State} {n : Nat} (r : Record) (h : s.stream.len < s.cursor + n) :
    s.complete n r = .next s.raiseTruncated := by
  rw [State.complete, if_neg (by omega)]

/-- What `complete` can do. -/
theorem State.complete_cases (s : State) (n : Nat) (r : Record) :
    (s.cursor + n ≤ s.stream.len ∧ s.complete n r = .next (s.emit n r)) ∨
      (s.stream.len < s.cursor + n ∧ s.complete n r = .next s.raiseTruncated) := by
  rcases Nat.lt_or_ge s.stream.len (s.cursor + n) with h | h
  · exact .inr ⟨h, State.complete_of_missing r h⟩
  · exact .inl ⟨h, State.complete_of_fits r h⟩

/-- The window of a step has at most four bytes (R31). -/
theorem State.window_length_le (s : State) : s.window.length ≤ 4 := s.stream.window_length_le 4 s.cursor

/-- The window is empty exactly at the end of the stream. -/
theorem State.window_eq_nil_iff (s : State) : s.window = [] ↔ s.stream.len ≤ s.cursor := by
  rw [← List.length_eq_zero_iff, State.window, Memory.window_length, maxLength]
  omega

/-- What a fetch can find: an instruction whose bytes are all present, or one of the two errors at the cursor. -/
theorem State.fetch_cases (s : State) :
    (∃ i rest, decode s.params s.window = .ok i rest ∧ s.fetch = .ok i ∧ s.cursor + i.length ≤ s.stream.len) ∨
      (decode s.params s.window = .truncated ∧ s.fetch = .error (.truncatedInstruction s.cursor)) ∨
      (∃ b, decode s.params s.window = .unrecognized b ∧ s.fetch = .error (.unrecognizedOpcode s.cursor b)) := by
  cases h : decode s.params s.window with
  | ok i rest =>
    refine .inl ⟨i, rest, rfl, by simp [State.fetch, h], ?_⟩
    obtain ⟨e, he, hl⟩ := decode_ok_length h
    have hw := Memory.window_length s.stream maxLength s.cursor
    have : s.window.length = e.length + rest.length := by rw [he, List.length_append]
    rw [State.window] at this
    have := i.length_bounds
    omega
  | truncated => exact .inr (.inl ⟨rfl, by simp [State.fetch, h]⟩)
  | unrecognized b => exact .inr (.inr ⟨b, rfl, by simp [State.fetch, h]⟩)

/-- What a step can do: run the fetched instruction, raise the fetched error, or serve a request of an ended sequence. -/
theorem step_cases (s : State) :
    (s.decodes = true ∧ ∃ i, s.fetch = .ok i ∧ step s = exec i s) ∨
      (s.decodes = true ∧ ∃ e, s.fetch = .error e ∧ step s = .next (s.raise e)) ∨
      (s.decodes = false ∧ step s = .next s.endOfSequence) := by
  cases hd : s.decodes
  · exact .inr (.inr ⟨rfl, by simp [step, hd]⟩)
  · cases hf : s.fetch with
    | ok i => exact .inl ⟨rfl, i, rfl, by simp [step, hd, hf]⟩
    | error e => exact .inr (.inl ⟨rfl, e, rfl, by simp [step, hd, hf]⟩)

/-- A step decodes exactly when the request at hand makes a `decode_next` (R90, R95). -/
theorem State.decodes_iff (s : State) : s.decodes = true ↔ Serves s := by
  unfold State.decodes Serves
  cases s.port <;> simp [State.allContinues]

/-- Every meaning is the shared end of a decode rule, with the instruction's length and its record. -/
theorem exec_eq_complete (i : Instr) (s : State) : exec i s = s.complete i.length (i.record s.params) := by
  cases i <;> rfl

/-- A table word always stands for four bytes. -/
theorem tableBytes_length (nbits w : Nat) : (tableBytes nbits w).length = 4 := by
  unfold tableBytes
  dsimp only
  split <;> rfl

/-- Inversion of the step: whatever next state it answers, either the fetched instruction's bytes are present and its
record was emitted, or the fetched error was raised, or the request was of an ended sequence. -/
theorem step_next_cases {s t : State} (h : step s = .next t) :
    (Serves s ∧ ∃ i, s.fetch = .ok i ∧ s.cursor + i.length ≤ s.stream.len ∧ t = s.emit i.length (i.record s.params)) ∨
      (Serves s ∧ ∃ e, s.fetch = .error e ∧ t = s.raise e) ∨ (¬ Serves s ∧ t = s.endOfSequence) := by
  rcases step_cases s with ⟨hd, i, hf, he⟩ | ⟨hd, e, hf, he⟩ | ⟨hd, he⟩ <;> rw [he] at h
  · rcases s.fetch_cases with ⟨i', rest, -, hf', hl⟩ | ⟨-, hf'⟩ | ⟨b, -, hf'⟩ <;> rw [hf] at hf' <;> cases hf'
    rw [exec_eq_complete, State.complete_of_fits _ hl] at h
    injection h with h
    exact .inl ⟨s.decodes_iff.1 hd, i, hf, hl, h.symm⟩
  · injection h with h
    exact .inr (.inl ⟨s.decodes_iff.1 hd, e, hf, h.symm⟩)
  · injection h with h
    refine .inr (.inr ⟨?_, h.symm⟩)
    rw [← s.decodes_iff, hd]
    decide

/-- The step on a fetched instruction. -/
theorem step_of_fetch_ok {s : State} {i : Instr} (hs : Serves s) (hf : s.fetch = .ok i) :
    step s = .next (s.emit i.length (i.record s.params)) := by
  rcases s.fetch_cases with ⟨i', rest, -, hf', hl⟩ | ⟨-, hf'⟩ | ⟨b, -, hf'⟩ <;> rw [hf] at hf' <;> cases hf'
  rw [step, if_pos (s.decodes_iff.2 hs), hf]
  simp only [exec_eq_complete, State.complete_of_fits _ hl]

/-- The step on a fetched error. -/
theorem step_of_fetch_error {s : State} {e : DecodeError} (hs : Serves s) (hf : s.fetch = .error e) :
    step s = .next (s.raise e) := by
  rw [step, if_pos (s.decodes_iff.2 hs), hf]

/-- The step on a request of an ended sequence. -/
theorem step_of_not_serves {s : State} (hs : ¬ Serves s) : step s = .next s.endOfSequence := by
  have hd : s.decodes = false := by
    rw [← Bool.not_eq_true, s.decodes_iff]
    exact hs
  simp [step, hd]

/-- A run goes on from the next state of its first step. -/
theorem run_succ {s t : State} (k : Nat) (h : step s = .next t) : Sys2Proof.core.run (k + 1) s = Sys2Proof.core.run k t := by
  have run_next : ∀ (M : Host.Core) (x y : M.State), M.step x = .next y → M.run (k + 1) x = M.run k y := by
    intro M x y hxy
    simp [Host.Core.run, hxy]
  exact run_next Sys2Proof.core s t h

/-- A run of no steps. -/
theorem run_zero (s : State) : Sys2Proof.core.run 0 s = .next s := rfl

@[simp] theorem consumed_append (a b : List Response) : consumed (a ++ b) = consumed a + consumed b := by
  induction a with
  | nil => simp [consumed]
  | cons o rest ih =>
    obtain ⟨port, r | e⟩ := o
    · simp [consumed, ih, Nat.add_assoc]
    · simp [consumed, ih]

@[simp] theorem yielded_append (a b : List Response) : yielded (a ++ b) = yielded a ++ yielded b := by
  induction a with
  | nil => rfl
  | cons o rest ih =>
    obtain ⟨_ | _, r⟩ := o <;> simp [yielded, ih]

end Sys2Proof.Machine
end

