-- ==== Sys2Proof/Laws/PerInstr.lean ====
section
/-! SUPPORT. Statements made per instruction. EncodeLength: the encoding of an instruction has exactly the instruction's
length (30_encoding.md R41). -/

namespace Sys2Proof.Laws.EncodeLength

/-- The encoding has as many bytes as the instruction's length says, under every parameter value. -/
def Statement (i : Instr) : Prop := ∀ p : Params, (encode p i).length = i.length

theorem movRegD0 (w : Width) (reg rm : Slot) : Statement (.movRegD0 w reg rm) := fun _ => rfl
theorem movRegD1 (w : Width) (reg rm : Slot) : Statement (.movRegD1 w reg rm) := fun _ => rfl
theorem movMemD0 (w : Width) (reg rm : Slot) : Statement (.movMemD0 w reg rm) := fun _ => rfl
theorem movMemD1 (w : Width) (reg rm : Slot) : Statement (.movMemD1 w reg rm) := fun _ => rfl
theorem movMem8D0 (w : Width) (reg rm : Slot) (disp : Byte) : Statement (.movMem8D0 w reg rm disp) := fun _ => rfl
theorem movMem8D1 (w : Width) (reg rm : Slot) (disp : Byte) : Statement (.movMem8D1 w reg rm disp) := fun _ => rfl
theorem movMem16D0 (w : Width) (reg rm : Slot) (disp : Word) : Statement (.movMem16D0 w reg rm disp) := fun _ => rfl
theorem movMem16D1 (w : Width) (reg rm : Slot) (disp : Word) : Statement (.movMem16D1 w reg rm disp) := fun _ => rfl
theorem movDirectD0 (w : Width) (reg : Slot) (addr : Word) : Statement (.movDirectD0 w reg addr) := fun _ => rfl
theorem movDirectD1 (w : Width) (reg : Slot) (addr : Word) : Statement (.movDirectD1 w reg addr) := fun _ => rfl
theorem movImmByte (reg : Slot) (data : Byte) : Statement (.movImmByte reg data) := fun _ => rfl
theorem movImmWord (reg : Slot) (data : Word) : Statement (.movImmWord reg data) := fun _ => rfl

end Sys2Proof.Laws.EncodeLength
end

