-- ==== Sys2Proof/Tests/Slice0.lean ====
section
/-! SUPPORT. Tests and witnesses. Every expected result is taken from the spec: from 95_test_vectors.md (section named at each
group) or from the encoding tables of 30_encoding.md. The witnesses show, for each statement with hypotheses, a concrete
state and operands that meet them. -/

namespace Sys2Proof.Tests

open Sys2Proof Sys2Proof.Machine

/-- The state of an outcome. -/
def nextState : Host.Outcome State Fault Refusal → Option State
  | .next s => some s
  | .fault _ => none
  | .refused _ => none

/-- A session on bytes, with the default parameters; `decode_all` is asked. -/
def session (bs : List Byte) : State := State.start Params.default bs []

/-- A session with `DIRECT_ADDR = true`. -/
def directSession (bs : List Byte) : State := State.start { Params.default with directAddr := true } bs []

/-- What one step shows: the cursor, the stop bit, the results. -/
def shown (s : State) : Option (Nat × Bool × List Result) :=
  (nextState (step s)).map (fun t => (t.cursor, t.halted, t.responses.map (fun o => o.result)))

/-- The lines one step prints. -/
def printed (s : State) : Option (List Text) :=
  (nextState (step s)).map (fun t => linesOf t.params t.responses)

/-- The default names of memory operands. -/
def bx : RegName := ⟨'b', 'x'⟩
def bp : RegName := ⟨'b', 'p'⟩
def si : RegName := ⟨'s', 'i'⟩
def di : RegName := ⟨'d', 'i'⟩

/-! ## Decoding, one word for each constructor, written out from R42 to R45 -/

theorem test_decode_movRegD0 : decode Params.default [0b10001001, 0b11011001] = .ok (.movRegD0 .word 3 1) [] := by decide
theorem test_decode_movRegD1 : decode Params.default [0b10001010, 0b11100001] = .ok (.movRegD1 .byte 4 1) [] := by decide
theorem test_decode_movMemD0 : decode Params.default [0b10001001, 0b00001001] = .ok (.movMemD0 .word 1 1) [] := by decide
theorem test_decode_movMemD1 : decode Params.default [0b10001011, 0b00011011] = .ok (.movMemD1 .word 3 3) [] := by decide
theorem test_decode_movMem8D0 :
    decode Params.default [0b10001000, 0b01101110, 0x00] = .ok (.movMem8D0 .byte 5 6 0x00) [] := by decide
theorem test_decode_movMem8D1 :
    decode Params.default [0b10001011, 0b01000001, 0xFF] = .ok (.movMem8D1 .word 0 1 0xFF) [] := by decide
theorem test_decode_movMem16D0 :
    decode Params.default [0b10001001, 0b10001010, 0xD4, 0xFE] = .ok (.movMem16D0 .word 1 2 0xFED4) [] := by decide
theorem test_decode_movMem16D1 :
    decode Params.default [0b10001011, 0b10010110, 0x34, 0x12, 0xB0] = .ok (.movMem16D1 .word 2 6 0x1234) [0xB0] := by decide
theorem test_decode_movDirectD0 :
    decode { Params.default with directAddr := true } [0b10001001, 0b00011110, 0x00, 0x01] =
      .ok (.movDirectD0 .word 3 0x0100) [] := by decide
theorem test_decode_movDirectD1 :
    decode { Params.default with directAddr := true } [0b10001011, 0b00011110, 0x34, 0x12] =
      .ok (.movDirectD1 .word 3 0x1234) [] := by decide
theorem test_decode_movImmByte : decode Params.default [0b10110001, 0xC8] = .ok (.movImmByte 1 0xC8) [] := by decide
theorem test_decode_movImmWord : decode Params.default [0b10111001, 0x00, 0x01] = .ok (.movImmWord 1 0x0100) [] := by decide

/-- With two codes that share a byte the first pattern wins (R46, R47): 0xB0 under OPC_RM6 = 101100, OPC_IMM4 = 1011. -/
theorem test_decode_first_match_wins :
    decode { Params.default with opcRM6 := 0b101100 } [0xB0, 0xC0] = .ok (.movRegD0 .byte 0 0) [] := by decide

/-- The encoder on the spec's example words. -/
theorem test_encode_movRegD0 : encode Params.default (.movRegD0 .word 3 1) = [0x89, 0xD9] := by decide
theorem test_encode_movMem16D0 : encode Params.default (.movMem16D0 .word 1 2 0xFED4) = [0x89, 0x8A, 0xD4, 0xFE] := by decide
theorem test_encode_movImmWord : encode Params.default (.movImmWord 1 0x0100) = [0xB9, 0x00, 0x01] := by decide

/-! ## The opcode table's words: each row's match value gives that row's instruction -/

theorem test_table_MOV_RM_REG_d0 : decodeTableWord 16 0x88C0 = some (.movRegD0 .byte 0 0) := by decide
theorem test_table_MOV_RM_MEM_d0 : decodeTableWord 16 0x8800 = some (.movMemD0 .byte 0 0) := by decide
theorem test_table_MOV_RM_MEM8_d0 : decodeTableWord 16 0x8840 = some (.movMem8D0 .byte 0 0 0) := by decide
theorem test_table_MOV_RM_MEM16_d0 : decodeTableWord 16 0x8880 = some (.movMem16D0 .byte 0 0 0) := by decide
theorem test_table_MOV_RM_REG_d1 : decodeTableWord 16 0x8AC0 = some (.movRegD1 .byte 0 0) := by decide
theorem test_table_MOV_RM_MEM_d1 : decodeTableWord 16 0x8A00 = some (.movMemD1 .byte 0 0) := by decide
theorem test_table_MOV_RM_MEM8_d1 : decodeTableWord 24 0x8A40 = some (.movMem8D1 .byte 0 0 0) := by decide
theorem test_table_MOV_RM_MEM16_d1 : decodeTableWord 32 0x8A80 = some (.movMem16D1 .byte 0 0 0) := by decide
theorem test_table_MOV_RM_DIRECT_d0 : decodeTableWord 16 0x8806 = some (.movDirectD0 .byte 0 0) := by decide
theorem test_table_MOV_RM_DIRECT_d1 : decodeTableWord 32 0x8A06 = some (.movDirectD1 .byte 0 0) := by decide
theorem test_table_MOV_IR_BYTE : decodeTableWord 8 0xB0 = some (.movImmByte 0 0) := by decide
theorem test_table_MOV_IR_WORD : decodeTableWord 24 0xB8 = some (.movImmWord 0 0) := by decide
theorem test_table_unrecognized : decodeTableWord 8 0x8C = none := by decide

/-- The first step after reset runs the word. -/
theorem test_first_step_reg :
    shown (State.reset.withFetchWord 16 0x89D9) = some (2, false, [.ok ⟨.mov, .reg 1 .word, .reg 3 .word⟩]) := by decide
theorem test_first_step_direct :
    shown (State.reset.withFetchWord 16 0x8B1E) =
      some (4, false, [.ok ⟨.mov, .reg 3 .word, .mem none none .direct 0⟩]) := by decide
theorem test_first_step_imm :
    shown (State.reset.withFetchWord 8 0xB9) = some (3, false, [.ok ⟨.mov, .reg 1 .word, .imm 0 .word⟩]) := by decide

/-! ## Steps: sections 3, 4 and 5 of 95_test_vectors.md -/

theorem test_step_89_D9 :
    shown (session [0x89, 0xD9]) = some (2, false, [.ok ⟨.mov, .reg 1 .word, .reg 3 .word⟩]) := by decide
theorem test_step_8B_CB :
    shown (session [0x8B, 0xCB]) = some (2, false, [.ok ⟨.mov, .reg 1 .word, .reg 3 .word⟩]) := by decide
theorem test_step_88_0A :
    shown (session [0x88, 0x0A]) =
      some (2, false, [.ok ⟨.mov, .mem (some bp) (some si) .nodisp 0, .reg 1 .byte⟩]) := by decide
theorem test_step_8A_00 :
    shown (session [0x8A, 0x00]) =
      some (2, false, [.ok ⟨.mov, .reg 0 .byte, .mem (some bx) (some si) .nodisp 0⟩]) := by decide
theorem test_step_88_6E_00 :
    shown (session [0x88, 0x6E, 0x00]) =
      some (3, false, [.ok ⟨.mov, .mem (some bp) none .disp8 0, .reg 5 .byte⟩]) := by decide
theorem test_step_8B_41_80 :
    shown (session [0x8B, 0x41, 0x80]) =
      some (3, false, [.ok ⟨.mov, .reg 0 .word, .mem (some bx) (some di) .disp8 0xFF80⟩]) := by decide
theorem test_step_89_8A_D4_FE :
    shown (session [0x89, 0x8A, 0xD4, 0xFE]) =
      some (4, false, [.ok ⟨.mov, .mem (some bp) (some si) .disp16 0xFED4, .reg 1 .word⟩]) := by decide
theorem test_step_8B_96_80_00 :
    shown (session [0x8B, 0x96, 0x80, 0x00]) =
      some (4, false, [.ok ⟨.mov, .reg 2 .word, .mem (some bp) none .disp16 0x0080⟩]) := by decide
theorem test_step_89_1E_00_01_direct :
    shown (directSession [0x89, 0x1E, 0x00, 0x01]) =
      some (4, false, [.ok ⟨.mov, .mem none none .direct 0x0100, .reg 3 .word⟩]) := by decide
theorem test_step_8B_1E_34_12_direct :
    shown (directSession [0x8B, 0x1E, 0x34, 0x12]) =
      some (4, false, [.ok ⟨.mov, .reg 3 .word, .mem none none .direct 0x1234⟩]) := by decide
/-- The same bytes under the default `DIRECT_ADDR = false` (R72). -/
theorem test_step_8B_1E_34_12_default :
    shown (session [0x8B, 0x1E, 0x34, 0x12]) =
      some (2, false, [.ok ⟨.mov, .reg 3 .word, .mem (some bp) none .nodisp 0⟩]) := by decide
theorem test_step_B5_F4 :
    shown (session [0xB5, 0xF4]) = some (2, false, [.ok ⟨.mov, .reg 5 .byte, .imm 244 .byte⟩]) := by decide
theorem test_step_B9_F4_FF :
    shown (session [0xB9, 0xF4, 0xFF]) = some (3, false, [.ok ⟨.mov, .reg 1 .word, .imm 65524 .word⟩]) := by decide

theorem test_step_empty : shown (session []) = some (0, false, []) := by decide
theorem test_step_8A : shown (session [0x8A]) = some (0, true, [.err (.truncatedInstruction 0)]) := by decide
theorem test_step_8B_41 : shown (session [0x8B, 0x41]) = some (0, true, [.err (.truncatedInstruction 0)]) := by decide
theorem test_step_8B_80_34 :
    shown (session [0x8B, 0x80, 0x34]) = some (0, true, [.err (.truncatedInstruction 0)]) := by decide
theorem test_step_B8_01 : shown (session [0xB8, 0x01]) = some (0, true, [.err (.truncatedInstruction 0)]) := by decide
theorem test_step_8B_1E_34_direct :
    shown (directSession [0x8B, 0x1E, 0x34]) = some (0, true, [.err (.truncatedInstruction 0)]) := by decide
theorem test_step_00 :
    shown (session [0x00, 0x89, 0xD9]) = some (0, true, [.err (.unrecognizedOpcode 0 0x00)]) := by decide
theorem test_step_8C : shown (session [0x8C]) = some (0, true, [.err (.unrecognizedOpcode 0 0x8C)]) := by decide
theorem test_step_AF : shown (session [0xAF]) = some (0, true, [.err (.unrecognizedOpcode 0 0xAF)]) := by decide
/-- P3 of section 7 at its third step: the offset is the cursor's. -/
theorem test_step_P3_90 :
    shown { session [0xB8, 0x01, 0x00, 0x89, 0xC3, 0x90, 0x89, 0xD9] with cursor := 5 } =
      some (5, true, [.err (.unrecognizedOpcode 5 0x90)]) := by decide
/-- Section 5: a direct `decode_next` at the end of the stream `89 D9` (R91); `halted` is not touched (R12). -/
theorem test_decode_next_at_end :
    shown { State.start Params.default [0x89, 0xD9] [.decodeNext] with cursor := 2 } =
      some (2, false, [.err (.truncatedInstruction 2)]) := by decide

/-! ## Texts: sections 1, 3, 4 and 7 of 95_test_vectors.md, and R111 -/

theorem test_text_mov_cx_bx : printed (session [0x89, 0xD9]) = some ["mov cx, bx".toList] := by decide
theorem test_text_no_displacement : printed (session [0x89, 0x36]) = some ["mov [bp], si".toList] := by decide
theorem test_text_explicit_zero : printed (session [0x8A, 0x40, 0x00]) = some ["mov al, [bx + si + 0]".toList] := by decide
theorem test_text_minus_one : printed (session [0x8A, 0x40, 0xFF]) = some ["mov al, [bx + si + -1]".toList] := by decide
theorem test_text_4660 : printed (session [0x8A, 0x80, 0x34, 0x12]) = some ["mov al, [bx + si + 4660]".toList] := by decide
theorem test_text_minus_32768 :
    printed (session [0x8B, 0x96, 0x00, 0x80]) = some ["mov dx, [bp + -32768]".toList] := by decide
theorem test_text_unsigned_disp16 :
    printed (State.start { Params.default with disp16Text := .unsigned } [0x8B, 0x96, 0x00, 0x80] []) =
      some ["mov dx, [bp + 32768]".toList] := by decide
theorem test_text_minus_magnitude :
    printed (State.start { Params.default with negDispStyle := .minusMagnitude } [0x89, 0x8A, 0xD4, 0xFE] []) =
      some ["mov [bp + si - 300], cx".toList] := by decide
theorem test_text_direct : printed (directSession [0x8B, 0x1E, 0x34, 0x12]) = some ["mov bx, [4660]".toList] := by decide
theorem test_text_imm_byte : printed (session [0xB1, 0xC8]) = some ["mov cl, 200".toList] := by decide
theorem test_text_imm_word : printed (session [0xBF, 0xFF, 0xFF]) = some ["mov di, 65535".toList] := by decide
theorem test_text_none_for_error : printed (session [0x00]) = some [] := by decide
theorem test_header_line : headerLine = "bits 16".toList := by decide
theorem test_error_codes :
    (DecodeError.truncatedInstruction 0).code = 1 ∧ (DecodeError.unrecognizedOpcode 0 0).code = 2 := by decide

/-! ## WellFormed refuses: one ill-formed term for each check -/

theorem test_illformed_movMemD0 :
    (Instr.movMemD0 .word 3 6).wf { Params.default with directAddr := true } = false := by decide
theorem test_illformed_movMemD1 :
    (Instr.movMemD1 .word 3 6).wf { Params.default with directAddr := true } = false := by decide
theorem test_illformed_movDirectD0 : (Instr.movDirectD0 .word 3 0).wf Params.default = false := by decide
theorem test_illformed_movDirectD1 : (Instr.movDirectD1 .word 3 0).wf Params.default = false := by decide
theorem test_illformed_movImmByte :
    (Instr.movImmByte 0 0).wf { Params.default with opcRM6 := 0b101100 } = false := by decide
theorem test_illformed_movImmWord :
    (Instr.movImmWord 0 0).wf { Params.default with opcRM6 := 0b101110 } = false := by decide
theorem test_illformed_index_boundary :
    ¬ ({ Params.default with eaTable := Vector.replicate 8 ⟨bx, none⟩ } : Params).indexBoundary := by decide
theorem test_illformed_code_zero : ¬ ({ Params.default with opcIMM4 := 0 } : Params).codesAllowed := by decide
theorem test_illformed_no_shared_prefix : ¬ ({ Params.default with opcRM6 := 0b000001 } : Params).codesAllowed := by decide
theorem test_illformed_stream_order : ({ len := 3, cells := [(1, 5), (0, 5)] } : Memory).wf = false := by decide
theorem test_illformed_stream_zero_listed : ({ len := 3, cells := [(1, 0)] } : Memory).wf = false := by decide
theorem test_illformed_stream_beyond : ({ len := 1, cells := [(1, 5)] } : Memory).wf = false := by decide

/-! ## Witnesses: concrete states and operands that meet a statement's hypotheses -/

/-- A session whose one request is a direct `decode_next`. -/
def directCall (bs : List Byte) : State := State.start Params.default bs [.decodeNext]

theorem serves_of_decodes {s : State} (h : s.decodes = true) : Serves s := s.decodes_iff.mp h

theorem witness_DecodeOfEncode :
    (Instr.movMemD0 .word 1 6).wf Params.default = true ∧
      (Instr.movDirectD1 .word 1 0xFFFF).wf { Params.default with directAddr := true } = true ∧
      (Instr.movImmWord 7 0xFFFF).wf Params.default = true := by decide
theorem witness_DecodedBytes : ∃ i rest, decode Params.default [0x8B, 0x41, 0xFF, 0x00] = .ok i rest :=
  ⟨.movMem8D1 .word 0 1 0xFF, [0x00], by decide⟩
theorem witness_Length_first : ∃ i rest, decode Params.default [0x8B, 0x96, 0x34, 0x12] = .ok i rest :=
  ⟨.movMem16D1 .word 2 6 0x1234, [], by decide⟩
theorem witness_Length_second :
    lengthOf Params.default 0x8B 0x96 = some 4 ∧ 4 ≤ ([0x34, 0x12] : List Byte).length + 2 := by decide
theorem witness_Length_third : (0xB8 : Byte).extractLsb' 2 6 ≠ Params.default.opcRM6 := by decide
theorem witness_Leading_first : (0x8B : Byte).extractLsb' 2 6 = Params.default.opcRM6 := by decide
theorem witness_Leading_second :
    (0xB0 : Byte).extractLsb' 2 6 ≠ Params.default.opcRM6 ∧ (0xB0 : Byte).extractLsb' 4 4 = Params.default.opcIMM4 := by decide
theorem witness_Leading_third :
    (0x8C : Byte).extractLsb' 2 6 ≠ Params.default.opcRM6 ∧ (0x8C : Byte).extractLsb' 4 4 ≠ Params.default.opcIMM4 := by decide
theorem witness_Leading_step :
    Serves (session [0x8C]) ∧ (session [0x8C]).stream.read (session [0x8C]).cursor = some 0x8C ∧
      (0x8C : Byte).extractLsb' 2 6 ≠ (session [0x8C]).params.opcRM6 ∧
      (0x8C : Byte).extractLsb' 4 4 ≠ (session [0x8C]).params.opcIMM4 :=
  ⟨serves_of_decodes (by decide), by decide, by decide, by decide⟩
theorem witness_PatternsShare_overlap :
    (0xB0 : Byte).extractLsb' 4 4 = ({ Params.default with opcRM6 := 0b101100 } : Params).opcIMM4 ∧
      (0xB0 : Byte).extractLsb' 2 6 = ({ Params.default with opcRM6 := 0b101100 } : Params).opcRM6 := by decide
theorem witness_PatternsShare_apart :
    (0xB4 : Byte).extractLsb' 4 4 = ({ Params.default with opcRM6 := 0b101100 } : Params).opcIMM4 ∧
      (0xB4 : Byte).extractLsb' 2 6 ≠ ({ Params.default with opcRM6 := 0b101100 } : Params).opcRM6 := by decide
theorem witness_NoProperPrefix :
    (Instr.movImmByte 1 200).wf Params.default = true ∧
      encode Params.default (.movImmByte 1 200) <+: encode Params.default (.movImmByte 1 200) := by decide
theorem witness_two_byte_forms_complete : (session [0x89, 0xD9]).cursor + 2 ≤ (session [0x89, 0xD9]).stream.len := by decide
theorem witness_three_byte_forms_complete :
    (session [0x8B, 0x41, 0xFF]).cursor + 3 ≤ (session [0x8B, 0x41, 0xFF]).stream.len := by decide
theorem witness_four_byte_forms_complete :
    (session [0x8B, 0x96, 0x34, 0x12]).cursor + 4 ≤ (session [0x8B, 0x96, 0x34, 0x12]).stream.len := by decide
theorem witness_EveryFormRaises :
    (session [0x8B, 0x96, 0x34]).stream.len <
      (session [0x8B, 0x96, 0x34]).cursor + (Instr.movMem16D1 .word 2 6 0x34).length := by decide
theorem witness_ImmediateMoves :
    (Instr.movImmWord 1 200).format = .ir ∧
      (∃ t, exec (.movImmWord 1 200) (session [0xB9, 0xC8, 0x00]) = .next t ∧
        t.responses = (session [0xB9, 0xC8, 0x00]).responses ++
          [⟨(session [0xB9, 0xC8, 0x00]).port, .ok ⟨.mov, .reg 1 .word, .imm 200 .word⟩⟩]) ∧
      ∃ t, exec (.movImmWord 1 200) (directCall [0xB9, 0xC8, 0x00]) = .next t ∧
        t.responses = (directCall [0xB9, 0xC8, 0x00]).responses ++
          [⟨(directCall [0xB9, 0xC8, 0x00]).port, .ok ⟨.mov, .reg 1 .word, .imm 200 .word⟩⟩] :=
  ⟨rfl, ⟨_, rfl, rfl⟩, _, rfl, rfl⟩
theorem witness_EveryInstructionLeaves_fits :
    (nextState (exec (.movRegD0 .word 3 1) (session [0x89, 0xD9]))).isSome = true ∧
      (session [0x89, 0xD9]).cursor + (Instr.movRegD0 .word 3 1).length ≤ (session [0x89, 0xD9]).stream.len := by decide
theorem witness_EveryInstructionLeaves_missing :
    (nextState (exec (.movRegD0 .word 3 1) (session [0x89]))).isSome = true ∧
      (session [0x89]).stream.len < (session [0x89]).cursor + (Instr.movRegD0 .word 3 1).length := by decide
theorem witness_StepRuns :
    Serves (session [0x89, 0xD9]) ∧ (Instr.movRegD0 .word 3 1).wf (session [0x89, 0xD9]).params = true ∧
      ∀ k, k < (Instr.movRegD0 .word 3 1).length → (session [0x89, 0xD9]).stream.read ((session [0x89, 0xD9]).cursor + k) =
        (encode (session [0x89, 0xD9]).params (.movRegD0 .word 3 1))[k]? :=
  ⟨serves_of_decodes (by decide), by decide, by decide⟩
theorem witness_FirstStep : ∃ i, decodeTableWord 16 0x88C0 = some i := ⟨_, test_table_MOV_RM_REG_d0⟩
theorem witness_Pseudocode : Serves (session [0x89, 0xD9]) ∧ Serves (directCall []) :=
  ⟨serves_of_decodes (by decide), serves_of_decodes (by decide)⟩
theorem witness_Unrecognized :
    Serves (session [0x8C]) ∧ (session [0x8C]).stream.read (session [0x8C]).cursor = some 0x8C ∧
      ∃ t, step (session [0x8C]) = .next t ∧
        t.responses = (session [0x8C]).responses ++ [⟨(session [0x8C]).port, .err (.unrecognizedOpcode 0 0x8C)⟩] :=
  ⟨serves_of_decodes (by decide), by decide, _, rfl, rfl⟩
theorem witness_Unrecognized_not :
    Serves (session [0x8B]) ∧ (session [0x8B]).stream.read (session [0x8B]).cursor = some 0x8B :=
  ⟨serves_of_decodes (by decide), by decide⟩
theorem witness_Truncated_first_pattern :
    Serves (session [0x8B, 0x80, 0x34]) ∧
      (session [0x8B, 0x80, 0x34]).stream.read (session [0x8B, 0x80, 0x34]).cursor = some 0x8B ∧
      (0x8B : Byte).extractLsb' 2 6 = (session [0x8B, 0x80, 0x34]).params.opcRM6 :=
  ⟨serves_of_decodes (by decide), by decide, by decide⟩
theorem witness_Truncated_second_pattern :
    Serves (session [0xB8, 0x01]) ∧ (session [0xB8, 0x01]).stream.read (session [0xB8, 0x01]).cursor = some 0xB8 ∧
      (0xB8 : Byte).extractLsb' 4 4 = (session [0xB8, 0x01]).params.opcIMM4 :=
  ⟨serves_of_decodes (by decide), by decide, by decide⟩
theorem witness_ErrorChanges :
    ∃ t, step (session [0x8B]) = .next t ∧
      t.responses = (session [0x8B]).responses ++ [⟨(session [0x8B]).port, .err (.truncatedInstruction 0)⟩] :=
  ⟨_, rfl, rfl⟩
theorem witness_DecodeNextAtTheEnd : (directCall []).requests = [.decodeNext] ∧ (directCall []).cursor = (directCall []).stream.len := by
  decide
theorem witness_EndedSequence_end :
    (session []).port = .decodeAll ∧ (session []).stream.len ≤ (session []).cursor := by decide
theorem witness_EndedSequence_halted :
    ({ session [0x00] with halted := true } : State).port = .decodeAll ∧
      ({ session [0x00] with halted := true } : State).halted = true := by decide
theorem witness_Retry :
    (State.start Params.default [0x00] [.decodeAll, .decodeNext, .decodeNext]).requests =
        .decodeAll :: List.replicate 2 .decodeNext ∧
      ∃ t, step (State.start Params.default [0x00] [.decodeAll, .decodeNext, .decodeNext]) = .next t ∧
        t.responses = (State.start Params.default [0x00] [.decodeAll, .decodeNext, .decodeNext]).responses ++
          [⟨.decodeAll, .err (.unrecognizedOpcode 0 0x00)⟩] :=
  ⟨rfl, _, rfl, rfl⟩

/-- A stopped session on the stream `00`. -/
def stopped : State :=
  { session [0x00] with halted := true, responses := [⟨.decodeAll, .err (.unrecognizedOpcode 0 0x00)⟩] }

theorem witness_Invariant_running : Inv (session [0x89, 0xD9]) ∧ ∃ t, step (session [0x89, 0xD9]) = .next t := by
  refine ⟨⟨by decide, by decide, by decide, ?_, ?_, ?_, ?_⟩, _, rfl⟩
  · intro o ho
    exact absurd ho List.not_mem_nil
  · intro r hr
    exact absurd hr List.not_mem_nil
  · intro _ r hr
    exact absurd hr List.not_mem_nil
  · intro h
    exact absurd h (by decide)
theorem witness_Invariant_stopped : Inv stopped ∧ ∃ t, step stopped = .next t := by
  refine ⟨⟨by decide, by decide, by decide, ?_, ?_, ?_, ?_⟩, _, rfl⟩
  · intro o ho r hr
    rw [List.mem_singleton.mp ho] at hr
    cases hr
  · intro r hr
    exact absurd hr List.not_mem_nil
  · intro h
    exact absurd h (by decide)
  · intro _
    exact ⟨by decide, .unrecognizedOpcode 0 0x00, by decide, by decide⟩
theorem witness_step_next : ∃ t, step (session [0x89, 0xD9]) = .next t := ⟨_, rfl⟩
theorem witness_Halted_kept : ({ session [0x00] with halted := true } : State).halted = true ∧
    ∃ t, step { session [0x00] with halted := true } = .next t := ⟨rfl, _, rfl⟩
theorem witness_Halted_decodeAll :
    (session [0x00]).port = .decodeAll ∧ (session [0x00]).halted = false ∧ ∃ t, step (session [0x00]) = .next t :=
  ⟨by decide, rfl, _, rfl⟩
theorem witness_Halted_decodeNext :
    (directCall [0x00]).port = .decodeNext ∧ ∃ t, step (directCall [0x00]) = .next t := ⟨by decide, _, rfl⟩
theorem witness_RecordDepends :
    ∃ s', step (session [0x89, 0xD9]) = .next s' ∧
      s'.responses = (session [0x89, 0xD9]).responses ++
        [⟨(session [0x89, 0xD9]).port, .ok ⟨.mov, .reg 1 .word, .reg 3 .word⟩⟩] ∧
      s'.cursor = (session [0x89, 0xD9]).cursor + 2 ∧
      (session [0xB0, 0x00, 0x89, 0xD9]).params = (session [0x89, 0xD9]).params ∧
      Serves { session [0xB0, 0x00, 0x89, 0xD9] with cursor := 2 } ∧
      ∀ k, k < 2 → (session [0xB0, 0x00, 0x89, 0xD9]).stream.read (2 + k) =
        (session [0x89, 0xD9]).stream.read ((session [0x89, 0xD9]).cursor + k) :=
  ⟨_, rfl, rfl, rfl, rfl, serves_of_decodes (by decide), by decide⟩
theorem witness_FourBytes_agree :
    (∃ s', step (session [0x8B, 0x96, 0x34, 0x12, 0xB0]) = .next s') ∧
      ∀ k, k < 4 → (Memory.load [0x8B, 0x96, 0x34, 0x12]).read ((session [0x8B, 0x96, 0x34, 0x12, 0xB0]).cursor + k) =
        (session [0x8B, 0x96, 0x34, 0x12, 0xB0]).stream.read ((session [0x8B, 0x96, 0x34, 0x12, 0xB0]).cursor + k) :=
  ⟨⟨_, rfl⟩, by decide⟩
theorem witness_FourBytes_unrecognized :
    (∃ s', step (session [0x00, 0x89]) = .next s' ∧
        s'.responses = (session [0x00, 0x89]).responses ++
          [⟨(session [0x00, 0x89]).port, .err (.unrecognizedOpcode 0 0x00)⟩]) ∧
      (Memory.load [0x00]).read (session [0x00, 0x89]).cursor =
        (session [0x00, 0x89]).stream.read (session [0x00, 0x89]).cursor :=
  ⟨⟨_, rfl, rfl⟩, by decide⟩
theorem witness_ValidEncoding :
    ∀ x ∈ [(([0x89, 0xD9] : List Byte), (⟨.mov, .reg 1 .word, .reg 3 .word⟩ : Record))],
      ValidEncoding Params.default x.1 x.2 := by
  intro x hx
  rw [List.mem_singleton.mp hx]
  exact ⟨_, rfl, rfl, rfl⟩
theorem witness_run_bounds : ([] : List Byte).length / 2 + 1 ≤ 1 ∧ ([0x89, 0xD9, 0x00] : List Byte).length / 2 + 1 ≤ 2 := by
  decide
theorem witness_Mixed : ([.decodeNext] : List Port).length =
    [(([0x89, 0xD9] : List Byte), (⟨.mov, .reg 1 .word, .reg 3 .word⟩ : Record))].length := by decide
theorem witness_EqualReads : (Memory.load [0x00, 0x05]).wf = true ∧ ({ len := 2, cells := [(1, 5)] } : Memory).wf = true ∧
    ∀ a, (Memory.load [0x00, 0x05]).read a = ({ len := 2, cells := [(1, 5)] } : Memory).read a :=
  ⟨by decide, by decide, fun _ => rfl⟩
theorem witness_TwoByteFields_present :
    (Memory.load [0x34, 0x12]).read 0 = some 0x34 ∧ (Memory.load [0x34, 0x12]).read (0 + 1) = some 0x12 := by decide
theorem witness_TwoByteFields_absent : (Memory.load [0x34]).len ≤ 0 + 1 := by decide
theorem witness_DisplacementKinds :
    Params.default.disp16Text = .signed ∧
      (({ Params.default with disp16Text := .unsigned } : Params).disp16Text ≠ .signed ∧ 0 ≤ (0x7F : Byte).toInt) := by decide
theorem witness_EveryLine : Params.default.negDispStyle = .plusSigned ∧
    Record.wf Params.default ⟨.mov, .reg 0 .byte, .imm 255 .byte⟩ ∧
    Record.wf Params.default ⟨.mov, .mem (some bp) none .disp8 0xFF80, .reg 0 .byte⟩ := by
  refine ⟨rfl, ⟨rfl, ?_⟩, ⟨⟨6, rfl, rfl⟩, ?_, ?_⟩⟩
  · show (255 : Word).toNat ≤ 255
    decide
  · show -128 ≤ signed16 0xFF80
    decide
  · show signed16 0xFF80 ≤ 127
    decide

end Sys2Proof.Tests
end

/-! PROOFS of the statements about the memory (20_memory.md). -/

namespace Sys2Proof.Machine

/-- The parameters are constants of the session: every way a step ends keeps them (R21). -/
theorem step_params {s t : State} (h : step s = .next t) : t.params = s.params := by
  rcases step_next_cases h with ⟨-, i, -, -, rfl⟩ | ⟨-, e, -, rfl⟩ | ⟨-, rfl⟩
  · exact State.emit_params ..
  · exact State.raise_params ..
  · exact State.endOfSequence_params ..

/-- The stream is a constant of the session: every way a step ends keeps it as data, length and cells (R13, R27). -/
theorem step_stream {s t : State} (h : step s = .next t) : t.stream = s.stream := by
  rcases step_next_cases h with ⟨-, i, -, -, rfl⟩ | ⟨-, e, -, rfl⟩ | ⟨-, rfl⟩
  · exact State.emit_stream ..
  · exact State.raise_stream ..
  · exact State.endOfSequence_stream ..

/-- Settles O36: the length and every read are functions of the stream, which a step keeps whole. -/
theorem noStepChangesStreamOrParameters : Obligations.NoStepChangesStreamOrParameters := by
  intro s t h
  have hstream : t.stream = s.stream := step_stream h
  exact ⟨step_params h, congrArg Memory.len hstream, fun a => congrArg (Memory.read · a) hstream⟩

end Sys2Proof.Machine

/-! PROOFS of the statements about the encoding (30_encoding.md). -/

namespace Sys2Proof

@[simp] theorem movReg_format (d : Bool) (w : Width) (reg rm : Slot) : (movReg d w reg rm).format = .rm := by
  cases d <;> rfl
@[simp] theorem movMem_format (d : Bool) (w : Width) (reg rm : Slot) : (movMem d w reg rm).format = .rm := by
  cases d <;> rfl
@[simp] theorem movMem8_format (d : Bool) (w : Width) (reg rm : Slot) (x : Byte) :
    (movMem8 d w reg rm x).format = .rm := by
  cases d <;> rfl
@[simp] theorem movMem16_format (d : Bool) (w : Width) (reg rm : Slot) (x : Word) :
    (movMem16 d w reg rm x).format = .rm := by
  cases d <;> rfl
@[simp] theorem movDirect_format (d : Bool) (w : Width) (reg : Slot) (x : Word) :
    (movDirect d w reg x).format = .rm := by
  cases d <;> rfl

/-- After byte 0 of Format RM no later byte leaves the format (R46). -/
theorem decodeRM_truncated_or_rm (p : Params) (d : Bool) (w : Width) (bs : List Byte) :
    decodeRM p d w bs = .truncated ∨ ∃ i rest, decodeRM p d w bs = .ok i rest ∧ i.format = .rm := by
  rcases decodeRM_cases p d w bs with h | ⟨b1, rest, -, hform⟩
  · exact .inl h
  · right
    rcases hform with ⟨-, h⟩ | ⟨-, -, h⟩ | ⟨-, -, -, lo, hi, rest', -, h⟩ | ⟨-, x, rest', -, h⟩ |
      ⟨-, lo, hi, rest', -, h⟩
    · exact ⟨_, _, h, movReg_format ..⟩
    · exact ⟨_, _, h, movMem_format ..⟩
    · exact ⟨_, _, h, movDirect_format ..⟩
    · exact ⟨_, _, h, movMem8_format ..⟩
    · exact ⟨_, _, h, movMem16_format ..⟩

/-- After byte 0 of Format IR no later byte leaves the format (R46). -/
theorem decodeIR_truncated_or_ir (w : Width) (reg : Slot) (bs : List Byte) :
    decodeIR w reg bs = .truncated ∨ ∃ i rest, decodeIR w reg bs = .ok i rest ∧ i.format = .ir := by
  rcases decodeIR_cases w reg bs with h | ⟨-, x, rest, -, h⟩ | ⟨-, lo, hi, rest, -, h⟩
  · exact .inl h
  · exact .inr ⟨_, _, h, rfl⟩
  · exact .inr ⟨_, _, h, rfl⟩

namespace Machine

/-- The window starts with the byte at the cursor. -/
theorem State.window_of_read {s : State} {b : Byte} (h : s.stream.read s.cursor = some b) :
    ∃ tail, s.window = b :: tail :=
  ⟨s.stream.window (s.cursor + 1) 3, by rw [State.window, maxLength, Memory.window, h]⟩

/-- A byte of neither pattern at the cursor is the fetched error, whatever follows it (R46, R123). -/
theorem State.fetch_of_no_pattern {s : State} {b0 : Byte} (hread : s.stream.read s.cursor = some b0)
    (h6 : opcode6 b0 ≠ s.params.opcRM6) (h4 : opcode4 b0 ≠ s.params.opcIMM4) :
    s.fetch = .error (.unrecognizedOpcode s.cursor b0) := by
  obtain ⟨tail, hwindow⟩ := State.window_of_read hread
  rw [State.fetch, hwindow, decode_none h6 h4]

/-- Settles O8, by the three branches of the pattern dispatch; the error of the third is what the step raises. -/
theorem leadingByteAloneSelectsTheFormat : Obligations.LeadingByteAloneSelectsTheFormat := by
  refine ⟨fun p b0 tail => ⟨fun h6 => ?_, fun h6 h4 => ?_, fun h6 h4 => ?_⟩, fun s b0 hserves hread h6 h4 => ?_⟩
  · rw [decode_rm h6]
    exact decodeRM_truncated_or_rm ..
  · rw [decode_ir h6 h4]
    exact decodeIR_truncated_or_ir ..
  · exact decode_none h6 h4 tail
  · have hfetch : s.fetch = .error (.unrecognizedOpcode s.cursor b0) := State.fetch_of_no_pattern hread h6 h4
    exact ⟨_, step_of_fetch_error hserves hfetch, State.raise_responses ..⟩

end Machine

end Sys2Proof

/-! PROOFS of the statements about the formatter (44_formatter.md). -/

namespace Sys2Proof.Machine

/-! ## Decimal numerals (R7): the model's digits are those of the library's base ten digits -/

theorem digitChar_eq_natDigitChar {d : Nat} (h : d < 10) : digitChar d = d.digitChar := by
  interval_cases d <;> rfl

/-- Digit by digit the two loops agree: "below ten" is the library's "the quotient by ten is zero". -/
theorem decDigits_eq_toDigitsCore (fuel n : Nat) (acc : Text) :
    decDigits fuel n acc = Nat.toDigitsCore 10 fuel n acc := by
  induction fuel generalizing n acc with
  | zero => rfl
  | succ fuel ih =>
    have hdigit : digitChar (n % 10) = (n % 10).digitChar := digitChar_eq_natDigitChar (Nat.mod_lt n (by decide))
    rw [decDigits, Nat.toDigitsCore, ← hdigit]
    by_cases hn : n < 10
    · rw [if_pos hn, if_pos (Nat.div_eq_of_lt hn), Nat.mod_eq_of_lt hn]
    · rw [if_neg hn, if_neg (by omega), ih]

theorem decNat_eq_toDigits (n : Nat) : decNat n = Nat.toDigits 10 n := decDigits_eq_toDigitsCore ..

theorem numeralValue_eq_ofDigitChars (t : Text) : numeralValue t = Nat.ofDigitChars 10 t 0 := rfl

theorem isDigit_of_charIsDigit {c : Char} (h : c.isDigit = true) : isDigit c = true := by
  simpa [isDigit, Char.isDigit, UInt32.le_iff_toNat_le] using h

theorem decNat_zero : decNat 0 = ['0'] := rfl

theorem decNat_ne_nil (n : Nat) : decNat n ≠ [] := decNat_eq_toDigits n ▸ Nat.toDigits_ne_nil

theorem isDigit_of_mem_decNat {n : Nat} {c : Char} (h : c ∈ decNat n) : isDigit c = true := by
  rw [decNat_eq_toDigits] at h
  exact isDigit_of_charIsDigit (Nat.isDigit_of_mem_toDigits (by decide) (by decide) h)

/-- A number of several digits starts as its quotient by ten does. -/
theorem head?_decNat_of_ten_le {n : Nat} (h : 10 ≤ n) : (decNat n).head? = (decNat (n / 10)).head? := by
  rw [decNat_eq_toDigits n, Nat.toDigits_of_base_le (by decide) h, ← decNat_eq_toDigits,
    List.head?_append_of_ne_nil _ (decNat_ne_nil _)]

/-- Only zero's numeral starts with a zero (R7, "no leading zeros"). -/
theorem eq_zero_of_head?_decNat {n : Nat} (h : (decNat n).head? = some '0') : n = 0 := by
  induction n using Nat.strong_induction_on with
  | _ n ih =>
    by_cases hn : n < 10
    · rw [decNat_eq_toDigits, Nat.toDigits_of_lt_base hn] at h
      exact Nat.digitChar_eq_zero.mp (Option.some.inj h)
    · rw [head?_decNat_of_ten_le (by omega)] at h
      have hquot : n / 10 = 0 := ih (n / 10) (by omega) h
      omega

theorem decNat_isNumber (n : Nat) : IsNumber (decNat n) := by
  refine ⟨decNat_ne_nil n, fun c hc => isDigit_of_mem_decNat hc, fun hzero => ?_⟩
  rw [eq_zero_of_head?_decNat hzero, decNat_zero]

theorem numeralValue_decNat (n : Nat) : numeralValue (decNat n) = n := by
  rw [numeralValue_eq_ofDigitChars, decNat_eq_toDigits, Nat.ofDigitChars_ten_toDigits]

@[simp] theorem fmtOperand_imm (p : Params) (v : Word) (w : Width) : fmtOperand p (.imm v w) = decNat v.toNat := rfl

/-- Settles O47: the immediate's text is the numeral of its unsigned value, whatever the width (R107). -/
theorem immediateTextIsItsUnsignedNumeral : Obligations.ImmediateTextIsItsUnsignedNumeral := by
  intro p v w
  rw [fmtOperand_imm]
  exact ⟨decNat_isNumber v.toNat, numeralValue_decNat v.toNat⟩

/-! ## The line and the register names (R105, R106) -/

theorem Op.text_eq_mov (op : Op) : op.text = ['m', 'o', 'v'] := by
  cases op
  rfl

@[simp] theorem fmtOperand_reg (p : Params) (slot : Slot) (w : Width) :
    fmtOperand p (.reg slot w) = [(p.regName slot w).first, (p.regName slot w).second] := rfl

theorem formatRecord_eq (p : Params) (r : Record) :
    formatRecord p r = ['m', 'o', 'v', ' '] ++ fmtOperand p r.dest ++ [',', ' '] ++ fmtOperand p r.src := by
  rw [formatRecord, Op.text_eq_mov]
  rfl

/-- Settles O46: `mov` is the only mnemonic, and a slot's name is the half of its pair that the width selects. -/
theorem lineIsMnemonicDestinationSource : Obligations.LineIsMnemonicDestinationSource :=
  ⟨formatRecord_eq, fun p slot => fmtOperand_reg p slot .byte, fun p slot => fmtOperand_reg p slot .word⟩

end Sys2Proof.Machine

/-! PROOFS of the statements about the decode errors (60_exceptions.md). -/

namespace Sys2Proof

/-- The decoder answers `unrecognized` for a leading byte of neither pattern only, and then names that byte: in either
format the bytes that follow give an instruction or are too few (R46, R123). -/
theorem decode_eq_unrecognized_iff {p : Params} {b0 b : Byte} {tail : List Byte} :
    decode p (b0 :: tail) = .unrecognized b ↔ (opcode6 b0 ≠ p.opcRM6 ∧ opcode4 b0 ≠ p.opcIMM4) ∧ b = b0 := by
  rcases classify_cases p b0 with ⟨h6, -⟩ | ⟨h6, h4, -⟩ | ⟨h6, h4, -⟩
  · rw [decode_rm h6]
    rcases decodeRM_truncated_or_rm p (dFlag b0) (wFlagRM b0) tail with h | ⟨i, rest, h, -⟩ <;> simp [h, h6]
  · rw [decode_ir h6 h4]
    rcases decodeIR_truncated_or_ir (wFlagIR b0) (regFieldIR b0) tail with h | ⟨i, rest, h, -⟩ <;> simp [h, h4]
  · rw [decode_none h6 h4]
    simp [h6, h4, eq_comm]

namespace Machine

/-- A fetch fails with `UnrecognizedOpcode` exactly when the decoder does, with the cursor as the offset (R121). -/
theorem State.fetch_eq_unrecognizedOpcode_iff {s : State} {c : Nat} {b : Byte} :
    s.fetch = .error (.unrecognizedOpcode c b) ↔ decode s.params s.window = .unrecognized b ∧ c = s.cursor := by
  rcases s.fetch_cases with ⟨i, rest, hdecode, hfetch, -⟩ | ⟨hdecode, hfetch⟩ | ⟨b', hdecode, hfetch⟩
  · simp [hdecode, hfetch]
  · simp [hdecode, hfetch]
  · simp [hdecode, hfetch, and_comm, eq_comm]

/-- The error a step answers with is the one its fetch found: an emit answers with a record, and an ended sequence
answers nothing (R120, R12). -/
theorem fetch_eq_error_of_step {s t : State} {e : DecodeError} (hstep : step s = .next t)
    (hresp : t.responses = s.responses ++ [⟨s.port, .err e⟩]) : s.fetch = .error e := by
  rcases step_next_cases hstep with ⟨-, i, -, -, rfl⟩ | ⟨-, e', hfetch, rfl⟩ | ⟨-, rfl⟩
  · simp at hresp
  · have he : e' = e := by simpa using hresp
    rw [hfetch, he]
  · simp at hresp

/-- Settles O26: the step's error is the fetch's, the fetch's is the decoder's, and the decoder's turns on the leading
byte of the window, which is the byte at the cursor (R123). -/
theorem unrecognizedOpcodeExactlyWhenNoPatternMatches :
    Obligations.UnrecognizedOpcodeExactlyWhenNoPatternMatches := by
  intro s b hserves hread
  obtain ⟨tail, hwindow⟩ := State.window_of_read hread
  have hfetch (c : Nat) (b' : Byte) : s.fetch = .error (.unrecognizedOpcode c b') ↔
      ((opcode6 b ≠ s.params.opcRM6 ∧ opcode4 b ≠ s.params.opcIMM4) ∧ b' = b) ∧ c = s.cursor := by
    rw [State.fetch_eq_unrecognizedOpcode_iff, hwindow, decode_eq_unrecognized_iff]
  refine ⟨⟨?_, fun hno => ?_⟩, fun t c b' hstep hresp => ?_⟩
  · rintro ⟨t, c, b', hstep, hresp⟩
    obtain ⟨⟨hno, -⟩, -⟩ := (hfetch c b').mp (fetch_eq_error_of_step hstep hresp)
    exact hno
  · have hraised := (hfetch s.cursor b).mpr ⟨⟨hno, rfl⟩, rfl⟩
    exact ⟨_, s.cursor, b, step_of_fetch_error hserves hraised, State.raise_responses ..⟩
  · obtain ⟨⟨-, hbyte⟩, hoffset⟩ := (hfetch c b').mp (fetch_eq_error_of_step hstep hresp)
    exact ⟨hoffset, hbyte⟩

end Machine

end Sys2Proof

/-! PROOFS of the statements about the round trip of decoder and encoder (30_encoding.md). -/

namespace Sys2Proof

/-! ## The encoder, form by form -/

@[simp] theorem encode_movReg (p : Params) (d : Bool) (w : Width) (reg rm : Slot) :
    encode p (movReg d w reg rm) = [rmLead p d w, modRegRm .register reg rm] := by
  cases d <;> rfl
@[simp] theorem encode_movMem (p : Params) (d : Bool) (w : Width) (reg rm : Slot) :
    encode p (movMem d w reg rm) = [rmLead p d w, modRegRm .noDisp reg rm] := by
  cases d <;> rfl
@[simp] theorem encode_movMem8 (p : Params) (d : Bool) (w : Width) (reg rm : Slot) (x : Byte) :
    encode p (movMem8 d w reg rm x) = [rmLead p d w, modRegRm .disp8 reg rm, x] := by
  cases d <;> rfl
@[simp] theorem encode_movMem16 (p : Params) (d : Bool) (w : Width) (reg rm : Slot) (x : Word) :
    encode p (movMem16 d w reg rm x) = [rmLead p d w, modRegRm .disp16 reg rm, loByte x, hiByte x] := by
  cases d <;> rfl
@[simp] theorem encode_movDirect (p : Params) (d : Bool) (w : Width) (reg : Slot) (x : Word) :
    encode p (movDirect d w reg x) = [rmLead p d w, modRegRm .noDisp reg p.directRM, loByte x, hiByte x] := by
  cases d <;> rfl
@[simp] theorem encode_movImmByte (p : Params) (reg : Slot) (x : Byte) :
    encode p (.movImmByte reg x) = [irLead p .byte reg, x] := rfl
@[simp] theorem encode_movImmWord (p : Params) (reg : Slot) (x : Word) :
    encode p (.movImmWord reg x) = [irLead p .word reg, loByte x, hiByte x] := rfl

theorem encode_length (p : Params) (i : Instr) : (encode p i).length = i.length := by
  cases i <;> rfl

/-! ## Which forms are well-formed -/

@[simp] theorem movReg_wf (p : Params) (d : Bool) (w : Width) (reg rm : Slot) : (movReg d w reg rm).wf p = true := by
  cases d <;> rfl
@[simp] theorem movMem_wf (p : Params) (d : Bool) (w : Width) (reg rm : Slot) :
    (movMem d w reg rm).wf p = true ↔ ¬ (p.directAddr = true ∧ rm = p.directRM) := by
  cases d <;> simp [movMem, Instr.wf, imp_iff_not_or]
@[simp] theorem movMem8_wf (p : Params) (d : Bool) (w : Width) (reg rm : Slot) (x : Byte) :
    (movMem8 d w reg rm x).wf p = true := by
  cases d <;> rfl
@[simp] theorem movMem16_wf (p : Params) (d : Bool) (w : Width) (reg rm : Slot) (x : Word) :
    (movMem16 d w reg rm x).wf p = true := by
  cases d <;> rfl
@[simp] theorem movDirect_wf (p : Params) (d : Bool) (w : Width) (reg : Slot) (x : Word) :
    (movDirect d w reg x).wf p = p.directAddr := by
  cases d <;> rfl
@[simp] theorem movImmByte_wf (p : Params) (reg : Slot) (x : Byte) :
    (Instr.movImmByte reg x).wf p = true ↔ opcode6 (irLead p .byte reg) ≠ p.opcRM6 := by
  simp [Instr.wf]
@[simp] theorem movImmWord_wf (p : Params) (reg : Slot) (x : Word) :
    (Instr.movImmWord reg x).wf p = true ↔ opcode6 (irLead p .word reg) ≠ p.opcRM6 := by
  simp [Instr.wf]

/-! ## Decoding what the encoder writes -/

theorem decode_rmLead (p : Params) (d : Bool) (w : Width) (bs : List Byte) :
    decode p (rmLead p d w :: bs) = decodeRM p d w bs := by
  rw [decode_rm (opcode6_rmLead p d w), dFlag_rmLead, wFlagRM_rmLead]

theorem decode_irLead {p : Params} {w : Width} {reg : Slot} (h : opcode6 (irLead p w reg) ≠ p.opcRM6)
    (bs : List Byte) : decode p (irLead p w reg :: bs) = decodeIR w reg bs := by
  rw [decode_ir h (opcode4_irLead p w reg), wFlagIR_irLead, regFieldIR_irLead]

theorem decode_encode_movReg (p : Params) (d : Bool) (w : Width) (reg rm : Slot) (rest : List Byte) :
    decode p (encode p (movReg d w reg rm) ++ rest) = .ok (movReg d w reg rm) rest := by
  simp [decode_rmLead, decodeRM]

theorem decode_encode_movMem {p : Params} {w : Width} {reg rm : Slot} (d : Bool) (rest : List Byte)
    (h : (movMem d w reg rm).wf p = true) :
    decode p (encode p (movMem d w reg rm) ++ rest) = .ok (movMem d w reg rm) rest := by
  have hdirect : (p.directAddr && rm == p.directRM) = false := by simpa using h
  simp [decode_rmLead, decodeRM, hdirect]

theorem decode_encode_movMem8 (p : Params) (d : Bool) (w : Width) (reg rm : Slot) (x : Byte) (rest : List Byte) :
    decode p (encode p (movMem8 d w reg rm x) ++ rest) = .ok (movMem8 d w reg rm x) rest := by
  simp [decode_rmLead, decodeRM, withByte]

theorem decode_encode_movMem16 (p : Params) (d : Bool) (w : Width) (reg rm : Slot) (x : Word) (rest : List Byte) :
    decode p (encode p (movMem16 d w reg rm x) ++ rest) = .ok (movMem16 d w reg rm x) rest := by
  simp [decode_rmLead, decodeRM, withWord]

theorem decode_encode_movDirect {p : Params} (d : Bool) (w : Width) (reg : Slot) (x : Word) (rest : List Byte)
    (h : p.directAddr = true) :
    decode p (encode p (movDirect d w reg x) ++ rest) = .ok (movDirect d w reg x) rest := by
  simp [decode_rmLead, decodeRM, withWord, h]

theorem decode_encode_movImmByte {p : Params} {reg : Slot} (x : Byte) (rest : List Byte)
    (h : opcode6 (irLead p .byte reg) ≠ p.opcRM6) :
    decode p (encode p (.movImmByte reg x) ++ rest) = .ok (.movImmByte reg x) rest :=
  decode_irLead h (x :: rest)

theorem decode_encode_movImmWord {p : Params} {reg : Slot} (x : Word) (rest : List Byte)
    (h : opcode6 (irLead p .word reg) ≠ p.opcRM6) :
    decode p (encode p (.movImmWord reg x) ++ rest) = .ok (.movImmWord reg x) rest := by
  have hdecode : decode p (encode p (.movImmWord reg x) ++ rest) =
      .ok (.movImmWord reg (le16 (loByte x) (hiByte x))) rest := decode_irLead h (loByte x :: hiByte x :: rest)
  rw [hdecode, le16_bytes]

/-- Settles O4, form by form: each field of an assembled byte is read back as it was laid. -/
theorem decodeOfEncodeGivesTheInstruction : Obligations.DecodeOfEncodeGivesTheInstruction := by
  intro p i rest hwf
  cases i with
  | movRegD0 w reg rm => exact decode_encode_movReg p false w reg rm rest
  | movRegD1 w reg rm => exact decode_encode_movReg p true w reg rm rest
  | movMemD0 w reg rm => exact decode_encode_movMem false rest hwf
  | movMemD1 w reg rm => exact decode_encode_movMem true rest hwf
  | movMem8D0 w reg rm x => exact decode_encode_movMem8 p false w reg rm x rest
  | movMem8D1 w reg rm x => exact decode_encode_movMem8 p true w reg rm x rest
  | movMem16D0 w reg rm x => exact decode_encode_movMem16 p false w reg rm x rest
  | movMem16D1 w reg rm x => exact decode_encode_movMem16 p true w reg rm x rest
  | movDirectD0 w reg x => exact decode_encode_movDirect false w reg x rest hwf
  | movDirectD1 w reg x => exact decode_encode_movDirect true w reg x rest hwf
  | movImmByte reg x => exact decode_encode_movImmByte x rest ((movImmByte_wf p reg x).mp hwf)
  | movImmWord reg x => exact decode_encode_movImmWord x rest ((movImmWord_wf p reg x).mp hwf)

/-! ## Encoding what the decoder read -/

theorem modRegRm_of_modField {b : Byte} {m : Mode} (h : modField b = m.bits) :
    modRegRm m (regField b) (rmField b) = b := by
  have hb := modRegRm_fields b
  rwa [h, Mode.ofBits_bits] at hb

/-- After a leading byte of Format RM: what was read is well-formed, and the bytes are its encoding. -/
theorem decodeRM_eq_ok {p : Params} {d : Bool} {w : Width} {bs rest : List Byte} {i : Instr}
    (h : decodeRM p d w bs = .ok i rest) : i.wf p = true ∧ rmLead p d w :: bs = encode p i ++ rest := by
  rcases decodeRM_cases p d w bs with ht | ⟨b1, r1, rfl, hform⟩
  · rw [ht] at h
    cases h
  · rcases hform with ⟨hmod, he⟩ | ⟨hmod, hdirect, he⟩ | ⟨hmod, haddr, hrm, lo, hi, r2, rfl, he⟩ |
      ⟨hmod, x, r2, rfl, he⟩ | ⟨hmod, lo, hi, r2, rfl, he⟩ <;> rw [he] at h <;> obtain ⟨rfl, rfl⟩ := Decoded.ok.inj h
    · simp [modRegRm_of_modField (m := .register) hmod]
    · simpa [modRegRm_of_modField (m := .noDisp) hmod] using hdirect
    · simp [← hrm, modRegRm_of_modField (m := .noDisp) hmod, haddr]
    · simp [modRegRm_of_modField (m := .disp8) hmod]
    · simp [modRegRm_of_modField (m := .disp16) hmod]

/-- After a leading byte of Format IR: what was read is well-formed, and the bytes are its encoding. -/
theorem decodeIR_eq_ok {p : Params} {w : Width} {reg : Slot} {bs rest : List Byte} {i : Instr}
    (hlead : opcode6 (irLead p w reg) ≠ p.opcRM6) (h : decodeIR w reg bs = .ok i rest) :
    i.wf p = true ∧ irLead p w reg :: bs = encode p i ++ rest := by
  rcases decodeIR_cases w reg bs with ht | ⟨rfl, x, r2, rfl, he⟩ | ⟨rfl, lo, hi, r2, rfl, he⟩
  · rw [ht] at h
    cases h
  · rw [he] at h
    obtain ⟨rfl, rfl⟩ := Decoded.ok.inj h
    simpa using hlead
  · rw [he] at h
    obtain ⟨rfl, rfl⟩ := Decoded.ok.inj h
    simpa using hlead

/-- Settles O5: the leading byte is put together again from the fields the decoder read, and so is the rest. -/
theorem decodedBytesAreTheEncoding : Obligations.DecodedBytesAreTheEncoding := by
  intro p bs i rest h
  cases bs with
  | nil => cases h
  | cons b0 tail =>
    rcases classify_cases p b0 with ⟨h6, -⟩ | ⟨h6, h4, -⟩ | ⟨h6, h4, -⟩
    · rw [decode_rm h6] at h
      rw [← rmLead_fields p b0 h6]
      exact decodeRM_eq_ok h
    · have hlead := irLead_fields p b0 h4
      rw [decode_ir h6 h4] at h
      rw [← hlead] at h6 ⊢
      exact decodeIR_eq_ok h6 h
    · rw [decode_none h6 h4] at h
      cases h

/-- The decoder answers an instruction exactly for the encoding of a well-formed one, and leaves what follows it. -/
theorem decode_eq_ok_iff {p : Params} {bs rest : List Byte} {i : Instr} :
    decode p bs = .ok i rest ↔ i.wf p = true ∧ bs = encode p i ++ rest := by
  refine ⟨decodedBytesAreTheEncoding p bs i rest, ?_⟩
  rintro ⟨hwf, rfl⟩
  exact decodeOfEncodeGivesTheInstruction p i rest hwf

/-- Settles O11: the longer encoding decodes to both instructions. -/
theorem noEncodingIsAProperPrefixOfAnother : Obligations.NoEncodingIsAProperPrefixOfAnother := by
  rintro p i j hi hj ⟨rest, hbytes⟩
  have hdecode_i : decode p (encode p j) = .ok i rest := decode_eq_ok_iff.mpr ⟨hi, hbytes.symm⟩
  have hdecode_j : decode p (encode p j) = .ok j [] := decode_eq_ok_iff.mpr ⟨hj, by simp⟩
  rw [hdecode_i] at hdecode_j
  exact (Decoded.ok.inj hdecode_j).1

end Sys2Proof

/-! PROOFS of the statements about lengths, leading bytes, table words and the default parameters (30_encoding.md). -/

namespace Sys2Proof

/-! ## The length (R51) -/

/-- A decoder's answer is told by a length `n` and the number of bytes at hand: an instruction of that length, with the
bytes after it left, when they are there, and truncated when not. -/
def Decoded.IsToldBy (n avail : Nat) (d : Decoded) : Prop :=
  (∃ i rest, d = .ok i rest ∧ i.length = n ∧ n + rest.length = avail) ∨ (d = .truncated ∧ avail < n)

theorem withByte_isToldBy {k : Byte → Instr} {n : Nat} (hk : ∀ x, (k x).length = n + 1) (bs : List Byte) :
    (withByte k bs).IsToldBy (n + 1) (n + bs.length) := by
  rcases withByte_cases k bs with ⟨rfl, h⟩ | ⟨x, rest, rfl, h⟩
  · exact .inr ⟨h, by simp⟩
  · exact .inl ⟨k x, rest, h, hk x, by simp only [List.length_cons]; omega⟩

theorem withWord_isToldBy {k : Word → Instr} {n : Nat} (hk : ∀ x, (k x).length = n + 2) (bs : List Byte) :
    (withWord k bs).IsToldBy (n + 2) (n + bs.length) := by
  rcases withWord_cases k bs with ⟨hlen, h⟩ | ⟨lo, hi, rest, rfl, h⟩
  · exact .inr ⟨h, by omega⟩
  · exact .inl ⟨k (le16 lo hi), rest, h, hk _, by simp only [List.length_cons]; omega⟩

/-- The length told by the mod/reg/rm byte in Format RM (R51). -/
def rmLength (p : Params) (b1 : Byte) : Nat :=
  match Mode.ofBits (modField b1) with
  | .register => 2
  | .noDisp => if p.directAddr && rmField b1 == p.directRM then 4 else 2
  | .disp8 => 3
  | .disp16 => 4

theorem lengthOf_rm {p : Params} {b0 : Byte} (h6 : opcode6 b0 = p.opcRM6) (b1 : Byte) :
    lengthOf p b0 b1 = some (rmLength p b1) := by
  rw [lengthOf, if_pos h6, rmLength, Mode.ofBits]
  split_ifs <;> simp_all

theorem lengthOf_ir {p : Params} {b0 : Byte} (h6 : opcode6 b0 ≠ p.opcRM6) (h4 : opcode4 b0 = p.opcIMM4) (b1 : Byte) :
    lengthOf p b0 b1 = some (if b0.getLsbD 3 = false then 2 else 3) := by
  rw [lengthOf, if_neg h6, if_pos h4]
  split <;> rfl

theorem lengthOf_none {p : Params} {b0 : Byte} (h6 : opcode6 b0 ≠ p.opcRM6) (h4 : opcode4 b0 ≠ p.opcIMM4) (b1 : Byte) :
    lengthOf p b0 b1 = none := by
  rw [lengthOf, if_neg h6, if_neg h4]

theorem decodeRM_isToldBy (p : Params) (d : Bool) (w : Width) (b1 : Byte) (tail : List Byte) :
    (decodeRM p d w (b1 :: tail)).IsToldBy (rmLength p b1) (2 + tail.length) := by
  rw [decodeRM, rmLength]
  cases Mode.ofBits (modField b1) with
  | register => exact .inl ⟨_, tail, rfl, movReg_length .., rfl⟩
  | noDisp =>
    dsimp only
    split
    · exact withWord_isToldBy (fun _ => movDirect_length ..) tail
    · exact .inl ⟨_, tail, rfl, movMem_length .., rfl⟩
  | disp8 => exact withByte_isToldBy (fun _ => movMem8_length ..) tail
  | disp16 => exact withWord_isToldBy (fun _ => movMem16_length ..) tail

theorem decodeIR_isToldBy (b0 : Byte) (reg : Slot) (tail : List Byte) :
    (decodeIR (wFlagIR b0) reg tail).IsToldBy (if b0.getLsbD 3 = false then 2 else 3) (1 + tail.length) := by
  rw [wFlagIR]
  cases b0.getLsbD 3 with
  | false => exact withByte_isToldBy (fun _ => rfl) tail
  | true => exact withWord_isToldBy (fun _ => rfl) tail

/-- R51: what the decoder answers is told by the length that the first two bytes give. -/
theorem decode_isToldBy_lengthOf {p : Params} {b0 b1 : Byte} {n : Nat} (h : lengthOf p b0 b1 = some n)
    (tail : List Byte) : (decode p (b0 :: b1 :: tail)).IsToldBy n (tail.length + 2) := by
  rcases classify_cases p b0 with ⟨h6, -⟩ | ⟨h6, h4, -⟩ | ⟨h6, h4, -⟩
  · rw [lengthOf_rm h6] at h
    rw [decode_rm h6, ← Option.some.inj h, Nat.add_comm]
    exact decodeRM_isToldBy ..
  · rw [lengthOf_ir h6 h4] at h
    rw [decode_ir h6 h4, ← Option.some.inj h, show tail.length + 2 = 1 + (b1 :: tail).length by simp; omega]
    exact decodeIR_isToldBy ..
  · rw [lengthOf_none h6 h4] at h
    cases h

/-- Two bytes tell a length exactly when the first matches a pattern. -/
theorem exists_lengthOf_iff {p : Params} {b0 b1 : Byte} :
    (∃ n, lengthOf p b0 b1 = some n) ↔ opcode6 b0 = p.opcRM6 ∨ opcode4 b0 = p.opcIMM4 := by
  rcases classify_cases p b0 with ⟨h6, -⟩ | ⟨h6, h4, -⟩ | ⟨h6, h4, -⟩
  · simp [lengthOf_rm h6, h6]
  · simp [lengthOf_ir h6 h4, h4]
  · simp [lengthOf_none h6 h4, h6, h4]

/-- Settles O7: the decoder's answer is told by the length; and Format IR's length looks at byte 0 alone. -/
theorem lengthIsToldByTheFirstTwoBytes : Obligations.LengthIsToldByTheFirstTwoBytes := by
  refine ⟨fun p b0 b1 tail rest i hdecode => ?_, fun p b0 b1 tail n hlen hn => ?_, fun p b0 b1 b1' h6 => ?_⟩
  · cases hlen : lengthOf p b0 b1 with
    | none =>
      have hno : ¬ (opcode6 b0 = p.opcRM6 ∨ opcode4 b0 = p.opcIMM4) := by simp [← exists_lengthOf_iff (b1 := b1), hlen]
      rw [not_or] at hno
      rw [decode_none hno.1 hno.2] at hdecode
      cases hdecode
    | some n =>
      rcases decode_isToldBy_lengthOf hlen tail with ⟨i', rest', he, hi, hrest⟩ | ⟨he, -⟩ <;> rw [he] at hdecode
      · obtain ⟨rfl, rfl⟩ := Decoded.ok.inj hdecode
        exact ⟨by rw [hi], by rw [hi, hrest]⟩
      · cases hdecode
  · rcases decode_isToldBy_lengthOf hlen tail with ⟨i, rest, he, -, -⟩ | ⟨-, hlt⟩
    · exact ⟨i, rest, he⟩
    · omega
  · by_cases h4 : opcode4 b0 = p.opcIMM4
    · rw [lengthOf_ir h6 h4, lengthOf_ir h6 h4]
    · rw [lengthOf_none h6 h4, lengthOf_none h6 h4]

/-! ## Leading bytes (R46, R47, R52) -/

theorem classify_eq_ir_iff (p : Params) (b : Byte) :
    classify p b = some .ir ↔ opcode6 b ≠ p.opcRM6 ∧ opcode4 b = p.opcIMM4 := by
  rcases classify_cases p b with ⟨h6, h⟩ | ⟨h6, h4, h⟩ | ⟨h6, h4, h⟩
  · simp [h, h6]
  · simp [h, h6, h4]
  · simp [h, h4]

theorem opcode4_eq_extract_opcode6 (b : Byte) : opcode4 b = (opcode6 b).extractLsb' 2 4 := by
  revert b
  decide

/-- Settles O9: pattern 1 is tested first, and the two patterns look at the same top four bits. -/
theorem patternsShareAByteExactlyWhenPrefixesAgree : Obligations.PatternsShareAByteExactlyWhenPrefixesAgree := by
  intro p
  refine ⟨⟨?_, fun hagree => ⟨rmLead p false .byte, ?_, ?_⟩⟩, fun b => ?_, fun b h4 => ⟨classify_eq_rm_iff p b, ?_⟩⟩
  · rintro ⟨b, h4, hrm⟩
    rw [← (classify_eq_rm_iff p b).mp hrm, ← opcode4_eq_extract_opcode6]
    exact h4
  · show opcode4 (rmLead p false .byte) = p.opcIMM4
    rw [opcode4_eq_extract_opcode6, opcode6_rmLead, hagree]
  · rw [classify_eq_rm_iff, opcode6_rmLead]
  · rw [classify_eq_rm_iff]
    refine ⟨fun h6 => ⟨dFlag b, wFlagRM b, (rmLead_fields p b h6).symm⟩, ?_⟩
    rintro ⟨d, w, rfl⟩
    exact opcode6_rmLead p d w
  · rw [classify_eq_ir_iff]
    exact and_iff_left h4

/-- Settles O10, by the 256 bytes. -/
theorem defaultLeadingByteSets : Obligations.DefaultLeadingByteSets := by
  unfold Obligations.DefaultLeadingByteSets
  decide

/-- Settles O6: twelve closed decodings. -/
theorem tableWordsDecodeToTheirRows : Obligations.TableWordsDecodeToTheirRows := by
  unfold Obligations.TableWordsDecodeToTheirRows
  decide

/-! ## The default parameters (R5, R61, R64) -/

theorem default_regName_injective_in (v w : Width) :
    ∀ a b : Slot, Params.default.regName a v = Params.default.regName b w → a = b ∧ v = w := by
  cases v <;> cases w <;> decide

/-- Settles O3, by the eight entries of each table. -/
theorem defaultParametersAreAllowed : Obligations.DefaultParametersAreAllowed :=
  ⟨⟨by decide, by decide⟩, fun a b v w => default_regName_injective_in v w a b⟩

end Sys2Proof

/-! PROOFS of the statements about the meanings of the twelve forms (41_mov_rm_reg.md, 42_mov_imm_reg.md). -/

namespace Sys2Proof.Machine

/-- An instruction whose bytes are all present completes with its record (R92). -/
theorem exec_of_fits {i : Instr} {s : State} (h : s.cursor + i.length ≤ s.stream.len) :
    exec i s = .next (s.emit i.length (i.record s.params)) := by
  rw [exec_eq_complete, State.complete_of_fits _ h]

/-- An instruction with a byte missing raises `TruncatedInstruction` at its start (R122). -/
theorem exec_of_missing {i : Instr} {s : State} (h : s.stream.len < s.cursor + i.length) :
    exec i s = .next s.raiseTruncated := by
  rw [exec_eq_complete, State.complete_of_missing _ h]

/-! ## Completion, form by form: the record is the rule's, and the emit is the only effect -/

/-- Settles O12. -/
theorem registerMoveCompletes : Obligations.RegisterMoveCompletes :=
  fun w reg rm _ h => ⟨exec_of_fits (i := .movRegD0 w reg rm) h, exec_of_fits (i := .movRegD1 w reg rm) h⟩

/-- Settles O13. -/
theorem memoryMoveCompletes : Obligations.MemoryMoveCompletes :=
  fun w reg rm _ h => ⟨exec_of_fits (i := .movMemD0 w reg rm) h, exec_of_fits (i := .movMemD1 w reg rm) h⟩

/-- Settles O14: the displacement is the sign extension of the byte. -/
theorem memoryMoveDisp8Completes : Obligations.MemoryMoveDisp8Completes :=
  fun w reg rm disp _ h => ⟨sext16 disp, signed16_sext16 disp,
    exec_of_fits (i := .movMem8D0 w reg rm disp) h, exec_of_fits (i := .movMem8D1 w reg rm disp) h⟩

/-- Settles O15. -/
theorem memoryMoveDisp16Completes : Obligations.MemoryMoveDisp16Completes :=
  fun w reg rm disp _ h =>
    ⟨exec_of_fits (i := .movMem16D0 w reg rm disp) h, exec_of_fits (i := .movMem16D1 w reg rm disp) h⟩

/-- Settles O16. -/
theorem directAddressMoveCompletes : Obligations.DirectAddressMoveCompletes :=
  fun w reg addr _ h => ⟨exec_of_fits (i := .movDirectD0 w reg addr) h, exec_of_fits (i := .movDirectD1 w reg addr) h⟩

/-- Settles O17: the immediate is the zero extension of the byte. -/
theorem byteImmediateMoveCompletes : Obligations.ByteImmediateMoveCompletes :=
  fun reg data _ h => ⟨zext16 data, zext16_toNat data, exec_of_fits (i := .movImmByte reg data) h⟩

/-- Settles O18. -/
theorem wordImmediateMoveCompletes : Obligations.WordImmediateMoveCompletes :=
  fun reg data _ h => exec_of_fits (i := .movImmWord reg data) h

/-- Settles O19. -/
theorem everyFormRaisesTruncatedWhenAByteIsMissing : Obligations.EveryFormRaisesTruncatedWhenAByteIsMissing :=
  fun _ _ h => exec_of_missing h

/-! ## The frame and the record of every form -/

/-- What a meaning can do: emit its record when its bytes are present, raise when one is missing. -/
theorem exec_next_cases {i : Instr} {s t : State} (h : exec i s = .next t) :
    (s.cursor + i.length ≤ s.stream.len ∧ t = s.emit i.length (i.record s.params)) ∨
      (s.stream.len < s.cursor + i.length ∧ t = s.raiseTruncated) := by
  rw [exec_eq_complete] at h
  rcases s.complete_cases i.length (i.record s.params) with ⟨hfits, he⟩ | ⟨hmissing, he⟩ <;> rw [he] at h <;>
    injection h with h
  · exact .inl ⟨hfits, h.symm⟩
  · exact .inr ⟨hmissing, h.symm⟩

/-- Settles O22: the emit touches the cursor and the ports, the raise `halted` and the ports. -/
theorem everyInstructionLeavesAllElseUnchanged : Obligations.EveryInstructionLeavesAllElseUnchanged := by
  intro i s t h
  rcases exec_next_cases h with ⟨hfits, rfl⟩ | ⟨hmissing, rfl⟩
  · exact ⟨rfl, rfl, fun _ => rfl, rfl, ⟨_, rfl⟩, fun _ => ⟨rfl, rfl⟩, fun hlt => by omega⟩
  · exact ⟨rfl, rfl, fun _ => rfl, rfl, ⟨_, rfl⟩, fun hle => by omega, fun _ => rfl⟩

/-- A record that a meaning gave is the instruction's. -/
theorem record_of_exec {i : Instr} {s t : State} {r : Record} (h : exec i s = .next t)
    (hresp : t.responses = s.responses ++ [⟨s.port, .ok r⟩]) : r = i.record s.params := by
  rcases exec_next_cases h with ⟨-, rfl⟩ | ⟨-, rfl⟩
  · simpa [eq_comm] using hresp
  · simp [State.raiseTruncated] at hresp

theorem zext16_injective : Function.Injective zext16 := by
  intro a b h
  apply BitVec.eq_of_toNat_eq
  rw [← zext16_toNat a, ← zext16_toNat b, h]

theorem record_movImmByte (p : Params) (reg : Slot) (x : Byte) :
    (Instr.movImmByte reg x).record p = ⟨.mov, .reg reg .byte, .imm (zext16 x) .byte⟩ := rfl
theorem record_movImmWord (p : Params) (reg : Slot) (x : Word) :
    (Instr.movImmWord reg x).record p = ⟨.mov, .reg reg .word, .imm x .word⟩ := rfl

theorem eq_imm_of_format_ir {i : Instr} (h : i.format = .ir) :
    (∃ reg x, i = .movImmByte reg x) ∨ ∃ reg x, i = .movImmWord reg x := by
  cases i with
  | movImmByte reg x => exact .inl ⟨reg, x, rfl⟩
  | movImmWord reg x => exact .inr ⟨reg, x, rfl⟩
  | _ => cases h

/-- The record of an immediate move holds its width, register and data (R88). -/
theorem eq_of_record_eq_of_ir {i j : Instr} {p p' : Params} (hi : i.format = .ir) (hj : j.format = .ir)
    (h : i.record p = j.record p') : i = j := by
  rcases eq_imm_of_format_ir hi with ⟨reg, x, rfl⟩ | ⟨reg, x, rfl⟩ <;>
    rcases eq_imm_of_format_ir hj with ⟨reg', x', rfl⟩ | ⟨reg', x', rfl⟩
  · simpa [record_movImmByte, zext16_injective.eq_iff] using h
  · simp [record_movImmByte, record_movImmWord] at h
  · simp [record_movImmByte, record_movImmWord] at h
  · simpa [record_movImmWord] using h

/-- Settles O21: what went out is the instruction's record, from which the instruction is read back. -/
theorem immediateMovesAreReadBackFromTheRecord : Obligations.ImmediateMovesAreReadBackFromTheRecord := by
  intro i j s s' t t' r hi hj hexec hresp hexec' hresp'
  have hrecord : r = i.record s.params := record_of_exec hexec hresp
  have hrecord' : r = j.record s'.params := record_of_exec hexec' hresp'
  exact eq_of_record_eq_of_ir hi hj (hrecord ▸ hrecord')

end Sys2Proof.Machine

/-! PROOFS of the statements about one step: what it fetches, what it answers and what it changes (43_sequencer.md,
60_exceptions.md). -/

namespace Sys2Proof.Machine

/-! ## What a fetch finds at the cursor -/

theorem State.window_getElem? (s : State) (k : Nat) :
    s.window[k]? = if k < 4 then s.stream.read (s.cursor + k) else none :=
  s.stream.window_getElem? 4 s.cursor k

theorem State.fetch_of_decode_ok {s : State} {i : Instr} {rest : List Byte}
    (h : decode s.params s.window = .ok i rest) : s.fetch = .ok i := by
  simp [State.fetch, h]

theorem State.fetch_of_decode_truncated {s : State} (h : decode s.params s.window = .truncated) :
    s.fetch = .error (.truncatedInstruction s.cursor) := by
  simp [State.fetch, h]

theorem State.fetch_of_decode_unrecognized {s : State} {b : Byte} (h : decode s.params s.window = .unrecognized b) :
    s.fetch = .error (.unrecognizedOpcode s.cursor b) := by
  simp [State.fetch, h]

/-- A fetch is a function of the parameters, the cursor and the four bytes there (R31). -/
theorem State.fetch_congr {s t : State} (hparams : t.params = s.params) (hcursor : t.cursor = s.cursor)
    (hwindow : t.window = s.window) : t.fetch = s.fetch := by
  simp [State.fetch, hparams, hcursor, hwindow]

theorem State.window_congr {s t : State}
    (h : ∀ k, k < 4 → t.stream.read (t.cursor + k) = s.stream.read (s.cursor + k)) : t.window = s.window := by
  apply List.ext_getElem?
  intro k
  rw [State.window_getElem?, State.window_getElem?]
  split
  · next hk => exact h k hk
  · rfl

/-- An instruction is fetched exactly when its encoding, that of a well-formed instruction, stands at the cursor. -/
theorem State.fetch_eq_ok_iff {s : State} {i : Instr} :
    s.fetch = .ok i ↔ i.wf s.params = true ∧
      ∀ k, k < i.length → s.stream.read (s.cursor + k) = (encode s.params i)[k]? := by
  have hlen : (encode s.params i).length = i.length := encode_length s.params i
  have hbound : i.length ≤ 4 := i.length_bounds.2
  constructor
  · intro hfetch
    rcases s.fetch_cases with ⟨i', rest, hdecode, hok, -⟩ | ⟨-, herr⟩ | ⟨b, -, herr⟩
    · obtain rfl : i' = i := Except.ok.inj (hok.symm.trans hfetch)
      obtain ⟨hwf, hwindow⟩ := decode_eq_ok_iff.mp hdecode
      refine ⟨hwf, fun k hk => ?_⟩
      have hbyte := s.window_getElem? k
      rwa [if_pos (by omega), hwindow, List.getElem?_append_left (by omega), eq_comm] at hbyte
    · rw [hfetch] at herr; cases herr
    · rw [hfetch] at herr; cases herr
  · rintro ⟨hwf, hbytes⟩
    have htake : s.window.take i.length = encode s.params i := by
      apply List.ext_getElem?
      intro k
      rw [List.getElem?_take]
      split
      · next hk => rw [State.window_getElem?, if_pos (by omega), hbytes k hk]
      · rw [List.getElem?_eq_none (by omega)]
    have hwindow : s.window = encode s.params i ++ s.window.drop i.length := by rw [← htake, List.take_append_drop]
    exact State.fetch_of_decode_ok (decode_eq_ok_iff.mpr ⟨hwf, hwindow⟩)

/-- A fetch finds an unrecognized opcode exactly when the byte at the cursor, the one the error names, matches no
pattern (R123). -/
theorem State.fetch_eq_unrecognizedOpcode_iff_read {s : State} {c : Nat} {b : Byte} :
    s.fetch = .error (.unrecognizedOpcode c b) ↔ c = s.cursor ∧ s.stream.read s.cursor = some b ∧
      opcode6 b ≠ s.params.opcRM6 ∧ opcode4 b ≠ s.params.opcIMM4 := by
  constructor
  · intro hfetch
    obtain ⟨hdecode, hc⟩ := State.fetch_eq_unrecognizedOpcode_iff.mp hfetch
    cases hwindow : s.window with
    | nil => simp [hwindow, decode] at hdecode
    | cons b0 tail =>
      rw [hwindow, decode_eq_unrecognized_iff] at hdecode
      obtain ⟨hno, rfl⟩ := hdecode
      have hbyte := s.window_getElem? 0
      simp only [hwindow] at hbyte
      exact ⟨hc, hbyte.symm, hno⟩
  · rintro ⟨rfl, hread, h6, h4⟩
    exact State.fetch_of_no_pattern hread h6 h4

/-- An error carries the start offset of the instruction (R121). -/
theorem State.offset_of_fetch_error {s : State} {e : DecodeError} (h : s.fetch = .error e) : e.offset = s.cursor := by
  rcases s.fetch_cases with ⟨i, rest, -, hf, -⟩ | ⟨-, hf⟩ | ⟨b, -, hf⟩ <;> rw [h] at hf <;> cases hf
  · rfl
  · rfl

theorem State.fits_of_fetch_ok {s : State} {i : Instr} (h : s.fetch = .ok i) : s.cursor + i.length ≤ s.stream.len := by
  rcases s.fetch_cases with ⟨i', rest, -, hf, hfits⟩ | ⟨-, hf⟩ | ⟨b, -, hf⟩ <;> rw [h] at hf <;> cases hf
  exact hfits

/-- At the end of the stream nothing is left to decode (R91, the spec's choice D4). -/
theorem State.fetch_at_end {s : State} (h : s.stream.len ≤ s.cursor) :
    s.fetch = .error (.truncatedInstruction s.cursor) := by
  apply State.fetch_of_decode_truncated
  rw [s.window_eq_nil_iff.mpr h]
  rfl

/-! ## When a step decodes -/

@[simp] theorem decodeNext_beq_decodeAll : (Port.decodeNext == Port.decodeAll) = false := rfl
@[simp] theorem decodeAll_beq_decodeAll : (Port.decodeAll == Port.decodeAll) = true := rfl

theorem serves_of_decodeNext {s : State} (h : s.port = .decodeNext) : Serves s := .inl h

theorem serves_of_running {s : State} (hhalted : s.halted = false) (hcursor : s.cursor < s.stream.len) : Serves s :=
  .inr ⟨hhalted, hcursor⟩

/-- A request of `decode_all` is served by a decode exactly while its loop condition holds (R95). -/
theorem serves_decodeAll_iff {s : State} (h : s.port = .decodeAll) :
    Serves s ↔ s.halted = false ∧ s.cursor < s.stream.len := by
  simp [Serves, h]

/-! ## The step of an instruction at the cursor -/

theorem step_eq_exec {s : State} {i : Instr} (hs : Serves s) (hf : s.fetch = .ok i) : step s = exec i s := by
  rw [step_of_fetch_ok hs hf, exec_of_fits (State.fits_of_fetch_ok hf)]

/-- Settles O23: the bytes at the cursor are what a fetch reads. -/
theorem stepRunsTheInstructionAtTheCursor : Obligations.StepRunsTheInstructionAtTheCursor :=
  fun _ _ hserves hwf hbytes => step_eq_exec hserves (State.fetch_eq_ok_iff.mpr ⟨hwf, hbytes⟩)

theorem decode_of_decodeTableWord {nbits w : Nat} {i : Instr} (h : decodeTableWord nbits w = some i) :
    ∃ rest, decode (tableParams nbits w) (tableBytes nbits w) = .ok i rest := by
  rw [decodeTableWord] at h
  cases hdecode : decode (tableParams nbits w) (tableBytes nbits w) with
  | ok j rest =>
    rw [hdecode] at h
    exact ⟨rest, by rw [Option.some.inj h]⟩
  | truncated => rw [hdecode] at h; cases h
  | unrecognized b => rw [hdecode] at h; cases h

/-- A table word laid at the cursor is what the window of the next step holds. -/
theorem window_reset_withFetchWord (nbits w : Nat) :
    (State.reset.withFetchWord nbits w).window = tableBytes nbits w := by
  have hwindow := Memory.window_writeBytes (m := State.reset.stream) (tableBytes nbits w) 0 rfl
  rwa [tableBytes_length] at hwindow

/-- Settles O24: the window of the loaded state is the word's four bytes, under the word's own parameters. -/
theorem firstStepRunsTheTableWord : Obligations.FirstStepRunsTheTableWord := by
  intro nbits w i h
  have hwindow := window_reset_withFetchWord nbits w
  obtain ⟨rest, hdecode⟩ := decode_of_decodeTableWord h
  have hserves : Serves (State.reset.withFetchWord nbits w) := by
    refine serves_of_running rfl (Nat.lt_of_not_le fun hend => ?_)
    rw [← State.window_eq_nil_iff, hwindow, ← List.length_eq_zero_iff, tableBytes_length] at hend
    cases hend
  refine step_eq_exec hserves (State.fetch_of_decode_ok (rest := rest) ?_)
  rw [hwindow]
  exact hdecode

/-! ## The result of a step -/

/-- Settles O34: an emit and a raise each give one result, and an ended sequence gives none. -/
theorem everyStepAnswersWithOneResult : Obligations.EveryStepAnswersWithOneResult := by
  intro s
  by_cases hserves : Serves s
  · cases hfetch : s.fetch with
    | ok i => exact ⟨_, step_of_fetch_ok hserves hfetch, rfl, fun _ => ⟨_, rfl⟩, fun hno => absurd hserves hno⟩
    | error e => exact ⟨_, step_of_fetch_error hserves hfetch, rfl, fun _ => ⟨_, rfl⟩, fun hno => absurd hserves hno⟩
  · exact ⟨_, step_of_not_serves hserves, rfl, fun hyes => absurd hyes hserves, fun _ => rfl⟩

/-- A step that answered an error is the raise of what it fetched. -/
theorem eq_raise_of_step_error {s t : State} {e : DecodeError} (hstep : step s = .next t)
    (hresp : t.responses = s.responses ++ [⟨s.port, .err e⟩]) : s.fetch = .error e ∧ t = s.raise e := by
  have hfetch := fetch_eq_error_of_step hstep hresp
  refine ⟨hfetch, ?_⟩
  rcases step_next_cases hstep with ⟨-, i, hok, -, -⟩ | ⟨-, e', herr, rfl⟩ | ⟨-, rfl⟩
  · rw [hfetch] at hok; cases hok
  · rw [Except.error.inj (hfetch.symm.trans herr)]
  · simp at hresp

/-- A step that answered a record is the emit of the instruction it fetched. -/
theorem eq_emit_of_step_record {s t : State} {r : Record} (hstep : step s = .next t)
    (hresp : t.responses = s.responses ++ [⟨s.port, .ok r⟩]) :
    ∃ i, s.fetch = .ok i ∧ r = i.record s.params ∧ t = s.emit i.length r := by
  rcases step_next_cases hstep with ⟨-, i, hok, -, rfl⟩ | ⟨-, e, -, rfl⟩ | ⟨-, rfl⟩
  · obtain rfl : i.record s.params = r := by simpa using hresp
    exact ⟨i, hok, rfl, rfl⟩
  · simp at hresp
  · simp at hresp

/-- Settles O28: the step is the raise of the fetched error. -/
theorem errorChangesNothingButHalted : Obligations.ErrorChangesNothingButHalted := by
  intro s t e hstep hresp
  obtain ⟨hfetch, ht⟩ := eq_raise_of_step_error hstep hresp
  exact ⟨State.offset_of_fetch_error hfetch, ht⟩

/-- Settles O29. -/
theorem decodeNextAtTheEndIsTruncated : Obligations.DecodeNextAtTheEndIsTruncated := by
  intro s q hrequests hend
  have hport : s.port = .decodeNext := State.port_of_requests_cons hrequests
  rw [step_of_fetch_error (serves_of_decodeNext hport) (State.fetch_at_end (by omega))]
  simp [State.raise, State.respond, hport, hrequests, hend]

/-- Settles O30: the loop condition of `decode_all` fails, so nothing is decoded. -/
theorem endedSequenceProducesNothingMore : Obligations.EndedSequenceProducesNothingMore := by
  intro s hport hended
  apply step_of_not_serves
  rw [serves_decodeAll_iff hport]
  rintro ⟨hhalted, hcursor⟩
  rcases hended with h | h
  · rw [hhalted] at h; cases h
  · omega

/-- A direct `decode_next` on a failed session gives the same error again, and changes nothing but the ports (R129). -/
theorem run_retries {e : DecodeError} (k : Nat) :
    ∀ t : State, t.requests = List.replicate k .decodeNext → t.fetch = .error e →
      Sys2Proof.core.run k t = .next { t with
        requests := [], responses := t.responses ++ List.replicate k ⟨.decodeNext, .err e⟩ } := by
  induction k with
  | zero =>
    intro t hrequests _
    rw [run_zero]
    simp only [List.replicate_zero, List.append_nil] at hrequests ⊢
    rw [← hrequests]
  | succ k ih =>
    intro t hrequests hfetch
    have hport : t.port = .decodeNext := State.port_of_requests_cons hrequests
    have hnext : (t.raise e).requests = List.replicate k .decodeNext := by simp [hrequests]
    rw [run_succ k (step_of_fetch_error (serves_of_decodeNext hport) hfetch), ih (t.raise e) hnext hfetch]
    simp [State.raise, State.respond, hport, List.replicate_succ]

/-- Settles O31: a raise leaves what the next fetch reads. -/
theorem retryReturnsTheSameError : Obligations.RetryReturnsTheSameError := by
  intro s t e q k hrequests hstep hresp
  have hport : s.port = q := State.port_of_requests_cons hrequests
  rw [← hport] at hresp
  obtain ⟨hfetch, rfl⟩ := eq_raise_of_step_error hstep hresp
  exact run_retries k (s.raise e) (by simp [hrequests]) hfetch

end Sys2Proof.Machine

/-! PROOFS that a step is the pseudocode of `decode_next` (43_sequencer.md R90). -/

namespace Sys2Proof

open Sys2Proof.Machine

/-! ## The record of each form, by the direction rule (R75) -/

@[simp] theorem movReg_record (p : Params) (d : Bool) (w : Width) (reg rm : Slot) :
    (movReg d w reg rm).record p = directed d (.reg reg w) (.reg rm w) := by
  cases d <;> rfl
@[simp] theorem movMem_record (p : Params) (d : Bool) (w : Width) (reg rm : Slot) :
    (movMem d w reg rm).record p = directed d (.reg reg w) (memNoDisp p rm) := by
  cases d <;> rfl
@[simp] theorem movMem8_record (p : Params) (d : Bool) (w : Width) (reg rm : Slot) (x : Byte) :
    (movMem8 d w reg rm x).record p = directed d (.reg reg w) (memDisp8 p rm x) := by
  cases d <;> rfl
@[simp] theorem movMem16_record (p : Params) (d : Bool) (w : Width) (reg rm : Slot) (x : Word) :
    (movMem16 d w reg rm x).record p = directed d (.reg reg w) (memDisp16 p rm x) := by
  cases d <;> rfl
@[simp] theorem movDirect_record (p : Params) (d : Bool) (w : Width) (reg : Slot) (x : Word) :
    (movDirect d w reg x).record p = directed d (.reg reg w) (directOperand x) := by
  cases d <;> rfl

/-- A decoder's answer for the instruction that starts at `c`, as the record and the length or the error (R90, R121). -/
def Decoded.outcome (p : Params) (c : Nat) : Decoded → Except DecodeError (Record × Nat)
  | .ok i _ => .ok (i.record p, i.length)
  | .truncated => .error (.truncatedInstruction c)
  | .unrecognized b => .error (.unrecognizedOpcode c b)

namespace Machine

/-- A byte read of the pseudocode, from the bytes present at `c` and on. -/
def byteOf (c : Nat) (b : Option Byte) : Except DecodeError Byte :=
  b.elim (.error (.truncatedInstruction c)) .ok

@[simp] theorem byteOf_some (c : Nat) (b : Byte) : byteOf c (some b) = .ok b := rfl
@[simp] theorem byteOf_none (c : Nat) : byteOf c none = .error (.truncatedInstruction c) := rfl

/-- The four reads at `c` and on find the bytes of the list `bs`. -/
def ReadsAre (m : Memory) (c : Nat) (bs : List Byte) : Prop :=
  memRead m c c = byteOf c bs[0]? ∧ memRead m c (c + 1) = byteOf c bs[1]? ∧
    memRead m c (c + 2) = byteOf c bs[2]? ∧ memRead m c (c + 3) = byteOf c bs[3]?

theorem memRead_eq_byteOf (m : Memory) (c a : Nat) : memRead m c a = byteOf c (m.read a) := by
  rw [memRead]
  cases m.read a <;> rfl

theorem State.readsAre_window (s : State) : ReadsAre s.stream s.cursor s.window := by
  simp [ReadsAre, memRead_eq_byteOf, State.window_getElem?]

/-- The Format RM branch of the pseudocode, on the leading byte `b0`, in the model's field names. -/
def rmRule (p : Params) (m : Memory) (c : Nat) (b0 : Byte) : Except DecodeError (Record × Nat) := do
  let b1 ← memRead m c (c + 1)
  (rmOperandRule p m c (wFlagRM b0) (modField b1) (rmField b1)).map
    (fun x => (directed (dFlag b0) (.reg (regField b1) (wFlagRM b0)) x.1, x.2))

/-- The Format IR branch of the pseudocode, on the leading byte `b0`, in the model's field names. -/
def irRule (m : Memory) (c : Nat) (b0 : Byte) : Except DecodeError (Record × Nat) :=
  match wFlagIR b0 with
  | .byte => (memRead m c (c + 1)).map (fun b => (⟨.mov, .reg (regFieldIR b0) .byte, immByteOperand b⟩, 2))
  | .word => do
    let l ← memRead m c (c + 1)
    (memRead m c (c + 2)).map (fun h => (⟨.mov, .reg (regFieldIR b0) .word, immWordOperand (le16 l h)⟩, 3))

theorem decodeNextRule_of_read_error {m : Memory} {c : Nat} {e : DecodeError} (p : Params)
    (hread : memRead m c c = .error e) : decodeNextRule p m c = .error e := by
  rw [decodeNextRule, hread]
  rfl

theorem decodeNextRule_rm {p : Params} {m : Memory} {c : Nat} {b0 : Byte} (hread : memRead m c c = .ok b0)
    (h6 : opcode6 b0 = p.opcRM6) : decodeNextRule p m c = rmRule p m c b0 := by
  rw [opcode6] at h6
  rw [decodeNextRule, rmRule, hread]
  simp only [bind, Except.bind, h6, if_true]
  cases memRead m c (c + 1) with
  | error e => rfl
  | ok b1 =>
    dsimp only
    rw [wFlagRM, Width.ofFlag, modField, rmField]
    cases rmOperandRule p m c (if b0.getLsbD 0 = true then .word else .byte) (b1.extractLsb' 6 2)
      (b1.extractLsb' 0 3) with
    | error e => rfl
    | ok x =>
      have hd : b0.getLsbD 1 = dFlag b0 := rfl
      simp only [hd]
      cases dFlag b0 <;> rfl

theorem decodeNextRule_ir {p : Params} {m : Memory} {c : Nat} {b0 : Byte} (hread : memRead m c c = .ok b0)
    (h6 : opcode6 b0 ≠ p.opcRM6) (h4 : opcode4 b0 = p.opcIMM4) : decodeNextRule p m c = irRule m c b0 := by
  rw [opcode6] at h6
  rw [opcode4] at h4
  rw [decodeNextRule, irRule, wFlagIR, hread]
  simp only [bind, Except.bind, h6, h4, if_true, if_false]
  cases b0.getLsbD 3 with
  | false => cases memRead m c (c + 1) <;> rfl
  | true => cases memRead m c (c + 1) <;> cases memRead m c (c + 2) <;> rfl

theorem decodeNextRule_none {p : Params} {m : Memory} {c : Nat} {b0 : Byte} (hread : memRead m c c = .ok b0)
    (h6 : opcode6 b0 ≠ p.opcRM6) (h4 : opcode4 b0 ≠ p.opcIMM4) :
    decodeNextRule p m c = .error (.unrecognizedOpcode c b0) := by
  rw [opcode6] at h6
  rw [opcode4] at h4
  rw [decodeNextRule, hread]
  simp only [bind, Except.bind, h6, h4, if_false]

/-- Format RM after its two first bytes: the operand the r/m field produces, beside the register of the `reg` field. -/
theorem rmOperandRule_eq {p : Params} {m : Memory} {c : Nat} {b0 b1 : Byte} {tail : List Byte}
    (hreads : ReadsAre m c (b0 :: b1 :: tail)) (d : Bool) (w : Width) :
    (rmOperandRule p m c w (modField b1) (rmField b1)).map (fun x => (directed d (.reg (regField b1) w) x.1, x.2)) =
      (decodeRM p d w (b1 :: tail)).outcome p c := by
  obtain ⟨-, -, h2, h3⟩ := hreads
  have hmod := Mode.bits_ofBits (modField b1)
  rw [rmOperandRule, decodeRM, h2, h3]
  cases hmode : Mode.ofBits (modField b1) <;> rw [hmode] at hmod <;> rw [← hmod]
  case register => simp [Mode.bits, Decoded.outcome, Except.map]
  case noDisp =>
    by_cases hdirect : p.directAddr = true ∧ rmField b1 = p.directRM
    · rcases tail with _ | ⟨b2, _ | ⟨b3, tail⟩⟩ <;>
        simp [Mode.bits, hdirect, withWord, Decoded.outcome, Except.map, bind, Except.bind, pure, Except.pure,
          directOperand, le16]
    · have hand : (p.directAddr && rmField b1 == p.directRM) = false := by simpa using hdirect
      simp [Mode.bits, hdirect, hand, Decoded.outcome, Except.map, memNoDisp, memOperand]
  case disp8 =>
    rcases tail with _ | ⟨b2, tail⟩ <;>
      simp [Mode.bits, withByte, Decoded.outcome, Except.map, bind, Except.bind, pure, Except.pure, memDisp8,
        memOperand, sext16]
  case disp16 =>
    rcases tail with _ | ⟨b2, _ | ⟨b3, tail⟩⟩ <;>
      simp [Mode.bits, withWord, Decoded.outcome, Except.map, bind, Except.bind, pure, Except.pure, memDisp16,
        memOperand, le16]

/-- The Format RM branch has the outcome of the decoder on the bytes present. -/
theorem rmRule_eq {p : Params} {m : Memory} {c : Nat} {b0 : Byte} {tail : List Byte}
    (hreads : ReadsAre m c (b0 :: tail)) :
    rmRule p m c b0 = (decodeRM p (dFlag b0) (wFlagRM b0) tail).outcome p c := by
  have h1 := hreads.2.1
  rw [rmRule, h1]
  cases tail with
  | nil => rfl
  | cons b1 tail => exact rmOperandRule_eq hreads (dFlag b0) (wFlagRM b0)

/-- The Format IR branch has the outcome of the decoder on the bytes present. -/
theorem irRule_eq {m : Memory} {c : Nat} {b0 : Byte} {tail : List Byte} (p : Params)
    (hreads : ReadsAre m c (b0 :: tail)) :
    irRule m c b0 = (decodeIR (wFlagIR b0) (regFieldIR b0) tail).outcome p c := by
  obtain ⟨-, h1, h2, -⟩ := hreads
  rw [irRule, h1, h2]
  cases wFlagIR b0 with
  | byte => cases tail <;> rfl
  | word => rcases tail with _ | ⟨b1, _ | ⟨b2, tail⟩⟩ <;> rfl

/-- The pseudocode, reading byte by byte, has the outcome of the decoder on the bytes present. -/
theorem decodeNextRule_eq {p : Params} {m : Memory} {c : Nat} {bs : List Byte} (hreads : ReadsAre m c bs) :
    decodeNextRule p m c = (decode p bs).outcome p c := by
  have h0 := hreads.1
  cases bs with
  | nil => exact decodeNextRule_of_read_error p h0
  | cons b0 tail =>
    rcases classify_cases p b0 with ⟨h6, -⟩ | ⟨h6, h4, -⟩ | ⟨h6, h4, -⟩
    · rw [decodeNextRule_rm h0 h6, decode_rm h6, rmRule_eq hreads]
    · rw [decodeNextRule_ir h0 h6 h4, decode_ir h6 h4, irRule_eq p hreads]
    · rw [decodeNextRule_none h0 h6 h4, decode_none h6 h4]
      rfl

/-- The outcome of the window's bytes is that of the fetch. -/
theorem State.outcome_window (s : State) : (decode s.params s.window).outcome s.params s.cursor =
    s.fetch.map (fun i => (i.record s.params, i.length)) := by
  rw [State.fetch]
  cases decode s.params s.window <;> rfl

/-- Settles O25: the pseudocode on the stream has the outcome of the fetch, which the step emits or raises. -/
theorem stepIsThePseudocodeOfDecodeNext : Obligations.StepIsThePseudocodeOfDecodeNext := by
  intro s hserves
  rw [decodeNextRule_eq s.readsAre_window, s.outcome_window]
  cases hfetch : s.fetch with
  | ok i => exact step_of_fetch_ok hserves hfetch
  | error e => exact step_of_fetch_error hserves hfetch

end Machine

end Sys2Proof

/-! PROOFS of the statements about what a step depends on, and about the cursor and `halted` (10_state.md, 20_memory.md,
43_sequencer.md, 60_exceptions.md). -/

namespace Sys2Proof.Machine

/-! ## The length in the record -/

/-- An instruction's length is the size of its record (R41). -/
theorem record_size (p : Params) (i : Instr) : (i.record p).size = i.length := by
  cases i <;> rfl

/-- Settles O35: only an emit moves the cursor, by the length of the instruction whose record goes out. -/
theorem cursorMovesOnlyByTheDecodedLength : Obligations.CursorMovesOnlyByTheDecodedLength := by
  intro s t hstep
  rcases step_next_cases hstep with ⟨-, i, -, hfits, rfl⟩ | ⟨-, e, -, rfl⟩ | ⟨-, rfl⟩
  · have hbounds := i.length_bounds
    exact .inr ⟨i.record s.params, i.length, rfl, rfl, (record_size s.params i).symm, by omega, hfits⟩
  · exact .inl ⟨rfl, by simp⟩
  · exact .inl ⟨rfl, by simp⟩

/-! ## `halted` (R12) -/

/-- For a direct `decode_next` a raise is the response alone. -/
theorem State.raise_of_decodeNext {s : State} (e : DecodeError) (h : s.port = .decodeNext) :
    s.raise e = s.respond (.err e) := by
  simp [State.raise, State.respond, h]

/-- A direct `decode_next` neither reads nor writes `halted`. -/
theorem step_with_halted {s t : State} (hport : s.port = .decodeNext) (hstep : step s = .next t) (h : Bool) :
    t.halted = s.halted ∧ step { s with halted := h } = .next { t with halted := h } := by
  have hserves : Serves { s with halted := h } := serves_of_decodeNext hport
  rcases step_next_cases hstep with ⟨-, i, hfetch, -, rfl⟩ | ⟨-, e, hfetch, rfl⟩ | ⟨hno, -⟩
  · exact ⟨rfl, step_of_fetch_ok hserves hfetch⟩
  · have hraise := State.raise_of_decodeNext (s := { s with halted := h }) e hport
    rw [step_of_fetch_error hserves hfetch, hraise, State.raise_of_decodeNext e hport]
    exact ⟨rfl, rfl⟩
  · exact absurd (serves_of_decodeNext hport) hno

/-- Settles O37: only a raise writes `halted`, and only for `decode_all`. -/
theorem haltedIsSetByDecodeAllOnErrorOnly : Obligations.HaltedIsSetByDecodeAllOnErrorOnly := by
  intro s t hstep
  refine ⟨fun hhalted => ?_, fun hport hhalted => ?_, fun hport => ?_⟩
  · rcases step_next_cases hstep with ⟨-, i, -, -, rfl⟩ | ⟨-, e, -, rfl⟩ | ⟨-, rfl⟩ <;> simp [hhalted]
  · rcases step_next_cases hstep with ⟨-, i, -, -, rfl⟩ | ⟨-, e, -, rfl⟩ | ⟨-, rfl⟩ <;> simp [hhalted, hport]
  · exact ⟨(step_with_halted hport hstep s.halted).1, fun h => (step_with_halted hport hstep h).2⟩

/-! ## What a step reads -/

/-- Settles O38: the bytes of the record's instruction stand at the other cursor too, so the same is fetched there. -/
theorem recordDependsOnlyOnTheInstructionBytes : Obligations.RecordDependsOnlyOnTheInstructionBytes := by
  intro s s' t r n hstep hresp hcursor hparams hserves hbytes
  obtain ⟨i, hfetch, rfl, rfl⟩ := eq_emit_of_step_record hstep hresp
  obtain rfl : i.length = n := Nat.add_left_cancel hcursor
  obtain ⟨hwf, hstands⟩ := State.fetch_eq_ok_iff.mp hfetch
  have hfetch' : t.fetch = .ok i := by
    rw [State.fetch_eq_ok_iff, hparams]
    exact ⟨hwf, fun k hk => (hbytes k hk).trans (hstands k hk)⟩
  exact ⟨_, step_of_fetch_ok hserves hfetch', by simp [hparams], rfl⟩

/-- With another stream in which the fetch finds the same, and whose byte at the cursor is the same, the step is the
same. -/
theorem step_with_stream {s t : State} {m : Memory} (hstep : step s = .next t)
    (hread : m.read s.cursor = s.stream.read s.cursor) (hfetch : ({ s with stream := m } : State).fetch = s.fetch) :
    step { s with stream := m } = .next { t with stream := m } := by
  have hlen : s.cursor < m.len ↔ s.cursor < s.stream.len := by
    rw [← Memory.read_isSome_iff, hread, Memory.read_isSome_iff]
  have hserves : Serves { s with stream := m } ↔ Serves s := or_congr Iff.rfl (and_congr_right fun _ => hlen)
  rcases step_next_cases hstep with ⟨hs, i, hf, -, rfl⟩ | ⟨hs, e, hf, rfl⟩ | ⟨hs, rfl⟩
  · exact step_of_fetch_ok (hserves.mpr hs) (hfetch.trans hf)
  · exact step_of_fetch_error (hserves.mpr hs) (hfetch.trans hf)
  · exact step_of_not_serves (hserves.not.mpr hs)

/-- Settles O39: the window is the four bytes at the cursor, and an unrecognized opcode is told by the first alone. -/
theorem stepReadsAtMostFourBytes : Obligations.StepReadsAtMostFourBytes := by
  intro s s' m hstep
  refine ⟨fun hbytes => ?_, fun c b hresp hread => ?_⟩
  · have hwindow : ({ s with stream := m } : State).window = s.window := State.window_congr hbytes
    exact step_with_stream hstep (hbytes 0 (by decide)) (State.fetch_congr rfl rfl hwindow)
  · obtain ⟨hfetch, -⟩ := eq_raise_of_step_error hstep hresp
    obtain ⟨hc, hbyte, hno⟩ := State.fetch_eq_unrecognizedOpcode_iff_read.mp hfetch
    refine step_with_stream hstep hread (Eq.trans ?_ hfetch.symm)
    exact State.fetch_eq_unrecognizedOpcode_iff_read.mpr ⟨hc, hread.trans hbyte, hno⟩

/-! ## When an instruction runs past the end (R122) -/

/-- The fetch is truncated exactly when the decoder is. -/
theorem State.fetch_eq_truncated_iff {s : State} {c : Nat} :
    s.fetch = .error (.truncatedInstruction c) ↔ decode s.params s.window = .truncated ∧ c = s.cursor := by
  rcases s.fetch_cases with ⟨i, rest, hdecode, hfetch, -⟩ | ⟨hdecode, hfetch⟩ | ⟨b, hdecode, hfetch⟩
  · simp [hdecode, hfetch]
  · simp [hdecode, hfetch, eq_comm]
  · simp [hdecode, hfetch]

/-- A leading byte alone, of either pattern, is a truncated instruction: every instruction has a second byte. -/
theorem decode_singleton {p : Params} {b0 : Byte} (h : opcode6 b0 = p.opcRM6 ∨ opcode4 b0 = p.opcIMM4) :
    decode p [b0] = .truncated := by
  rcases classify_cases p b0 with ⟨h6, -⟩ | ⟨h6, h4, -⟩ | ⟨h6, h4, -⟩
  · exact decode_rm h6 []
  · rw [decode_ir h6 h4]
    cases wFlagIR b0 <;> rfl
  · simp [h6, h4] at h

/-- With two bytes there the decoder is truncated exactly when the told length asks for more. -/
theorem decode_eq_truncated_iff {p : Params} {b0 b1 : Byte} {n : Nat} (h : lengthOf p b0 b1 = some n)
    (tail : List Byte) : decode p (b0 :: b1 :: tail) = .truncated ↔ tail.length + 2 < n := by
  rcases decode_isToldBy_lengthOf h tail with ⟨i, rest, he, -, hlen⟩ | ⟨he, hlt⟩
  · rw [he]
    exact iff_of_false (by simp) (by omega)
  · exact iff_of_true he hlt

/-- A told length is that of an instruction: at most four. -/
theorem lengthOf_le_four {p : Params} {b0 b1 : Byte} {n : Nat} (h : lengthOf p b0 b1 = some n) : n ≤ 4 := by
  rcases decode_isToldBy_lengthOf h (List.replicate n 0) with ⟨i, rest, -, hi, -⟩ | ⟨-, hlt⟩
  · rw [← hi]
    exact i.length_bounds.2
  · rw [List.length_replicate] at hlt
    omega

theorem State.window_length (s : State) : s.window.length = min 4 (s.stream.len - s.cursor) :=
  s.stream.window_length 4 s.cursor

theorem State.window_two {s : State} {b0 b1 : Byte} (h0 : s.stream.read s.cursor = some b0)
    (h1 : s.stream.read (s.cursor + 1) = some b1) : ∃ tail, s.window = b0 :: b1 :: tail :=
  ⟨s.stream.window (s.cursor + 1 + 1) 2, by
    rw [State.window, maxLength, Memory.window, h0]
    dsimp only
    rw [Memory.window, h1]⟩

/-- Settles O27: with no second byte the decoder is truncated; with one, exactly when the told length passes the end. -/
theorem truncatedExactlyWhenTheInstructionRunsPastTheEnd :
    Obligations.TruncatedExactlyWhenTheInstructionRunsPastTheEnd := by
  intro s b0 hserves h0 hpattern
  have hlt : s.cursor < s.stream.len := Memory.lt_of_read h0
  have hwindowLen := s.window_length
  have hraised : (∃ t, step s = .next t ∧
      t.responses = s.responses ++ [⟨s.port, .err (.truncatedInstruction s.cursor)⟩]) ↔
        decode s.params s.window = .truncated := by
    refine ⟨fun ⟨t, hstep, hresp⟩ => ?_, fun hdecode => ?_⟩
    · exact (State.fetch_eq_truncated_iff.mp (eq_raise_of_step_error hstep hresp).1).1
    · exact ⟨_, step_of_fetch_error hserves (State.fetch_of_decode_truncated hdecode), State.raise_responses ..⟩
  rw [hraised]
  by_cases hend : s.stream.len ≤ s.cursor + 1
  · have hwindow : s.window = [b0] := by
      obtain ⟨tail, hw⟩ := State.window_of_read h0
      rw [hw, List.length_cons] at hwindowLen
      rw [hw, List.length_eq_zero_iff.mp (show tail.length = 0 by omega)]
    rw [hwindow]
    exact iff_of_true (decode_singleton hpattern) (.inl hend)
  · have h1 := Memory.read_of_lt (Nat.lt_of_not_le hend)
    obtain ⟨tail, hw⟩ := State.window_two h0 h1
    obtain ⟨n, hn⟩ := exists_lengthOf_iff.mpr hpattern
    have hn4 := lengthOf_le_four hn
    rw [hw, List.length_cons, List.length_cons] at hwindowLen
    rw [hw, decode_eq_truncated_iff hn]
    refine ⟨fun hshort => .inr ⟨_, n, h1, hn, by omega⟩, ?_⟩
    rintro (hle | ⟨b1, n', hread, hn', hpast⟩)
    · exact absurd hle hend
    · obtain rfl := Option.some.inj (h1.symm.trans hread)
      obtain rfl := Option.some.inj (hn.symm.trans hn')
      omega

end Sys2Proof.Machine

/-! PROOFS of the statements about the start of a session and its invariant (10_state.md, 43_sequencer.md). -/

namespace Sys2Proof.Machine

/-! ## The start of a session (R22, R140) -/

/-- Settles O1: the loaded stream reads as the sequence, and the rest is what `State.start` writes. -/
theorem startSetsCursorHaltedAndStream : Obligations.StartSetsCursorHaltedAndStream :=
  fun _ bs _ => ⟨rfl, rfl, rfl, rfl, Memory.load_len bs, Memory.read_load bs⟩

/-- Settles O2. -/
theorem resetIsASessionOnTheEmptyStream : Obligations.ResetIsASessionOnTheEmptyStream := rfl

/-! ## The records the decode rules produce (R17 to R19) -/

theorem eaPair_ea (p : Params) (rm : Slot) : EAPair p (some (p.ea rm).base) (p.ea rm).index := ⟨rm, rfl, rfl⟩

theorem memWf_noDisp (p : Params) (rm : Slot) : MemWf p (some (p.ea rm).base) (p.ea rm).index .nodisp 0 :=
  ⟨eaPair_ea p rm, rfl⟩

/-- A sign-extended byte has the signed range of a byte (R48). -/
theorem memWf_disp8 (p : Params) (rm : Slot) (x : Byte) :
    MemWf p (some (p.ea rm).base) (p.ea rm).index .disp8 (sext16 x) := by
  have hlow := BitVec.le_toInt x
  have hhigh := BitVec.toInt_lt (x := x)
  rw [← signed16_sext16] at hlow hhigh
  exact ⟨eaPair_ea p rm, by omega, by omega⟩

theorem immWf_zext16 (x : Byte) : ImmWf (zext16 x) .byte := by
  have hlt := x.isLt
  show (zext16 x).toNat ≤ 255
  rw [zext16_toNat]
  omega

theorem immWf_word (x : Word) : ImmWf x .word := by
  have hlt := x.isLt
  show x.toNat ≤ 65535
  omega

/-- A well-formed instruction's record is one that the decode rules can produce (R19). -/
theorem record_wf {p : Params} {i : Instr} (h : i.wf p = true) : (i.record p).wf p := by
  cases i with
  | movRegD0 w reg rm => rfl
  | movRegD1 w reg rm => rfl
  | movMemD0 w reg rm => exact memWf_noDisp p rm
  | movMemD1 w reg rm => exact memWf_noDisp p rm
  | movMem8D0 w reg rm x => exact memWf_disp8 p rm x
  | movMem8D1 w reg rm x => exact memWf_disp8 p rm x
  | movMem16D0 w reg rm x => exact eaPair_ea p rm
  | movMem16D1 w reg rm x => exact eaPair_ea p rm
  | movDirectD0 w reg x => exact ⟨rfl, rfl, h⟩
  | movDirectD1 w reg x => exact ⟨rfl, rfl, h⟩
  | movImmByte reg x => exact ⟨rfl, immWf_zext16 x⟩
  | movImmWord reg x => exact ⟨rfl, immWf_word x⟩

/-! ## The sequence of `decode_all` (R95) -/

@[simp] theorem yielded_decodeNext (r : Result) : yielded [⟨.decodeNext, r⟩] = [] := rfl
@[simp] theorem yielded_decodeAll (r : Result) : yielded [⟨.decodeAll, r⟩] = [r] := rfl
@[simp] theorem consumed_ok (q : Port) (r : Record) : consumed [⟨q, .ok r⟩] = r.size := rfl
@[simp] theorem consumed_err (q : Port) (e : DecodeError) : consumed [⟨q, .err e⟩] = 0 := rfl

theorem sequenceShape_of_all_ok {l : List Result} (h : ∀ r ∈ l, r.isOk = true) : SequenceShape l :=
  fun r hr => h r (List.mem_of_mem_dropLast hr)

theorem sequenceShape_append_one {l : List Result} (h : ∀ r ∈ l, r.isOk = true) (x : Result) :
    SequenceShape (l ++ [x]) := by
  rw [SequenceShape, List.dropLast_concat]
  exact h

/-! ## The invariant -/

/-- The invariant holds at the start of a session on any stream. -/
theorem inv_start (p : Params) (bs : List Byte) (q : List Port) : Inv (State.start p bs q) where
  stream := Memory.load_wf bs
  cursor := Nat.zero_le _
  consumption := rfl
  records := by simp
  shape := by simp [SequenceShape, yielded]
  running := by simp [yielded]
  stopped := by simp

/-- Settles O32: reset is the start of a session. -/
theorem invariantHoldsAtTheStart : Obligations.InvariantHoldsAtTheStart :=
  ⟨resetIsASessionOnTheEmptyStream ▸ inv_start Params.default [] [], inv_start⟩

/-- An emitted record keeps the invariant: a stopped session fetches an error, so none is emitted there. -/
theorem inv_emit {s : State} {i : Instr} (hinv : Inv s) (hfetch : s.fetch = .ok i) :
    Inv (s.emit i.length (i.record s.params)) := by
  have hrunning : s.halted = false := by
    rw [← Bool.not_eq_true]
    intro hhalted
    obtain ⟨-, e, herr, -⟩ := hinv.stopped hhalted
    rw [hfetch] at herr
    cases herr
  have hall := hinv.running hrunning
  have hall' : ∀ r ∈ yielded (s.emit i.length (i.record s.params)).responses, r.isOk = true := by
    cases hport : s.port with
    | decodeNext => simpa [hport] using hall
    | decodeAll =>
      simp only [State.emit_responses, hport, yielded_append, yielded_decodeAll, List.mem_append, List.mem_singleton]
      rintro r (hr | rfl)
      · exact hall r hr
      · rfl
  exact {
    stream := hinv.stream
    cursor := State.fits_of_fetch_ok hfetch
    consumption := by simp [hinv.consumption, record_size]
    records := by
      simp only [State.emit_responses, List.mem_append, List.mem_singleton]
      rintro o (ho | rfl) r hr
      · exact hinv.records o ho r hr
      · obtain rfl := Result.ok.inj hr
        exact record_wf (State.fetch_eq_ok_iff.mp hfetch).1
    shape := sequenceShape_of_all_ok hall'
    running := fun _ => hall'
    stopped := fun hhalted => by rw [State.emit_halted, hrunning] at hhalted; cases hhalted }

/-- A raised error keeps the invariant: `decode_all` was running and stops on it, and a direct `decode_next` adds
nothing to the sequence. -/
theorem inv_raise {s : State} {e : DecodeError} (hinv : Inv s) (hserves : Serves s) (hfetch : s.fetch = .error e) :
    Inv (s.raise e) := by
  have hstream := hinv.stream
  have hcursor := hinv.cursor
  have hconsumption : s.cursor = consumed (s.raise e).responses := by simp [hinv.consumption]
  have hrecords : ∀ o ∈ (s.raise e).responses, ∀ r, o.result = .ok r → r.wf s.params := by
    simp only [State.raise_responses, List.mem_append, List.mem_singleton]
    rintro o (ho | rfl) r hr
    · exact hinv.records o ho r hr
    · cases hr
  cases hport : s.port with
  | decodeNext =>
    have hyielded : yielded (s.raise e).responses = yielded s.responses := by simp [hport]
    have hhalted : (s.raise e).halted = s.halted := by simp [hport]
    refine ⟨hstream, hcursor, hconsumption, hrecords, hyielded ▸ hinv.shape, ?_, ?_⟩ <;> rw [hyielded, hhalted]
    · exact hinv.running
    · exact hinv.stopped
  | decodeAll =>
    obtain ⟨hrunning, hlt⟩ := (serves_decodeAll_iff hport).mp hserves
    have hyielded : yielded (s.raise e).responses = yielded s.responses ++ [.err e] := by simp [hport]
    have hhalted : (s.raise e).halted = true := by simp [hport]
    refine ⟨hstream, hcursor, hconsumption, hrecords, ?_, fun hno => ?_, fun _ => ⟨hlt, e, hfetch, ?_⟩⟩
    · rw [hyielded]
      exact sequenceShape_append_one (hinv.running hrunning) _
    · rw [hhalted] at hno
      cases hno
    · rw [hyielded, List.getLast?_concat]

/-- Settles O33, by the three ways a step can end; the last, a request of an ended sequence, touches none of the fields
the invariant speaks of. -/
theorem everyStepKeepsTheInvariant : Obligations.EveryStepKeepsTheInvariant := by
  intro s t hinv hstep
  rcases step_next_cases hstep with ⟨-, i, hfetch, -, rfl⟩ | ⟨hserves, e, hfetch, rfl⟩ | ⟨-, rfl⟩
  · exact inv_emit hinv hfetch
  · exact inv_raise hinv hserves hfetch
  · obtain ⟨hstream, hcursor, hconsumption, hrecords, hshape, hrunning, hstopped⟩ := hinv
    exact ⟨hstream, hcursor, hconsumption, hrecords, hshape, hrunning, hstopped⟩

end Sys2Proof.Machine

/-! PROOFS of the statements about whole runs (43_sequencer.md). -/

namespace Sys2Proof.Machine

/-! ## Runs -/

/-- What every step keeps, a run keeps. -/
theorem run_preserves {P : State → Prop} (hstep : ∀ s t, P s → step s = .next t → P t) (k : Nat) :
    ∀ s t, P s → Sys2Proof.core.run k s = .next t → P t := by
  induction k with
  | zero =>
    intro s t hs hrun
    rw [run_zero] at hrun
    injection hrun with hst
    exact hst ▸ hs
  | succ k ih =>
    intro s t hs hrun
    obtain ⟨u, hu, -⟩ := everyStepAnswersWithOneResult s
    rw [run_succ k hu] at hrun
    exact ih u t (hstep s u hs hu) hrun

theorem run_inv {k : Nat} {s t : State} (hs : Inv s) (hrun : Sys2Proof.core.run k s = .next t) : Inv t :=
  run_preserves everyStepKeepsTheInvariant k s t hs hrun

theorem run_stream {k : Nat} {s t : State} (hrun : Sys2Proof.core.run k s = .next t) : t.stream = s.stream :=
  run_preserves (P := fun u => u.stream = s.stream) (fun _ _ hu hstep => (step_stream hstep).trans hu) k s t rfl hrun

/-- An ended `decode_all` with no request listed changes nothing more (R12). -/
theorem run_of_ended {s : State} (hrequests : s.requests = []) (hended : ¬ Serves s) (k : Nat) :
    Sys2Proof.core.run k s = .next s := by
  have hstep : step s = .next s := by
    rw [step_of_not_serves hended, State.endOfSequence, hrequests, List.tail_nil, ← hrequests]
  induction k with
  | zero => exact run_zero s
  | succ k ih => rw [run_succ k hstep, ih]

/-! ## A fetch from a loaded stream: the decoder looks no further than the window -/

theorem decode_take_ok {p : Params} {bs rest : List Byte} {i : Instr} (h : decode p bs = .ok i rest) :
    decode p (bs.take 4) = .ok i (rest.take (4 - i.length)) := by
  obtain ⟨hwf, rfl⟩ := decode_eq_ok_iff.mp h
  refine decode_eq_ok_iff.mpr ⟨hwf, ?_⟩
  rw [List.take_append, encode_length, List.take_of_length_le (by rw [encode_length]; exact i.length_bounds.2)]

theorem decode_take_unrecognized {p : Params} {bs : List Byte} {b : Byte} (h : decode p bs = .unrecognized b) :
    decode p (bs.take 4) = .unrecognized b := by
  cases bs with
  | nil => cases h
  | cons b0 tail => exact decode_eq_unrecognized_iff.mpr (decode_eq_unrecognized_iff.mp h)

theorem decode_take_truncated {p : Params} {bs : List Byte} (h : decode p bs = .truncated) :
    decode p (bs.take 4) = .truncated := by
  cases htake : decode p (bs.take 4) with
  | truncated => rfl
  | ok i rest =>
    obtain ⟨hwf, hbytes⟩ := decode_eq_ok_iff.mp htake
    have hdecode : decode p bs = .ok i (rest ++ bs.drop 4) := by
      rw [decode_eq_ok_iff, ← List.append_assoc, ← hbytes, List.take_append_drop]
      exact ⟨hwf, rfl⟩
    rw [h] at hdecode
    cases hdecode
  | unrecognized b =>
    cases bs with
    | nil => cases htake
    | cons b0 tail =>
      have hdecode : decode p (b0 :: tail) = .unrecognized b :=
        decode_eq_unrecognized_iff.mpr (decode_eq_unrecognized_iff.mp htake)
      rw [h] at hdecode
      cases hdecode

theorem State.window_of_load {s : State} {bs : List Byte} (hstream : s.stream = Memory.load bs) :
    s.window = (bs.drop s.cursor).take 4 := by
  rw [State.window, hstream, Memory.window_load, maxLength]

theorem State.fetch_load_ok {s : State} {bs rest : List Byte} {i : Instr} (hstream : s.stream = Memory.load bs)
    (h : decode s.params (bs.drop s.cursor) = .ok i rest) : s.fetch = .ok i :=
  State.fetch_of_decode_ok (State.window_of_load hstream ▸ decode_take_ok h)

theorem State.fetch_load_truncated {s : State} {bs : List Byte} (hstream : s.stream = Memory.load bs)
    (h : decode s.params (bs.drop s.cursor) = .truncated) : s.fetch = .error (.truncatedInstruction s.cursor) :=
  State.fetch_of_decode_truncated (State.window_of_load hstream ▸ decode_take_truncated h)

theorem State.fetch_load_unrecognized {s : State} {bs : List Byte} {b : Byte} (hstream : s.stream = Memory.load bs)
    (h : decode s.params (bs.drop s.cursor) = .unrecognized b) : s.fetch = .error (.unrecognizedOpcode s.cursor b) :=
  State.fetch_of_decode_unrecognized (State.window_of_load hstream ▸ decode_take_unrecognized h)

theorem serves_of_fetch_ok {s : State} {i : Instr} (hhalted : s.halted = false) (hfetch : s.fetch = .ok i) :
    Serves s := by
  have hfits := State.fits_of_fetch_ok hfetch
  have hbounds := i.length_bounds
  exact serves_of_running hhalted (by omega)

/-! ## Valid encodings (R100) -/

/-- The valid encodings are those of the well-formed instructions, with their records. -/
theorem validEncoding_iff {p : Params} {e : List Byte} {r : Record} :
    ValidEncoding p e r ↔ ∃ i, i.wf p = true ∧ e = encode p i ∧ r = i.record p := by
  constructor
  · rintro ⟨t, hstep, hcursor, hresp⟩
    obtain ⟨i, hfetch, rfl, rfl⟩ := eq_emit_of_step_record hstep hresp
    obtain ⟨hwf, hbytes⟩ := State.fetch_eq_ok_iff.mp hfetch
    have hlen : (encode p i).length = e.length := by
      rw [encode_length, ← hcursor]
      exact (Nat.zero_add _).symm
    refine ⟨i, hwf, List.ext_getElem? fun k => ?_, rfl⟩
    by_cases hk : k < i.length
    · have hbyte := hbytes k hk
      rwa [State.start_stream, State.start_cursor, Nat.zero_add, Memory.read_load] at hbyte
    · rw [← encode_length p i] at hk
      rw [List.getElem?_eq_none (by omega), List.getElem?_eq_none (by omega)]
  · rintro ⟨i, hwf, rfl, rfl⟩
    have hfetch : (State.start p (encode p i) []).fetch = .ok i :=
      State.fetch_load_ok (rest := []) rfl (decode_eq_ok_iff.mpr ⟨hwf, by simp⟩)
    refine ⟨_, step_of_fetch_ok (serves_of_fetch_ok rfl hfetch) hfetch, ?_, rfl⟩
    rw [State.emit_cursor, encode_length, State.start_cursor, Nat.zero_add]

/-- Settles O20: the direction flag differs, and the direction rule swaps the two registers back. -/
theorem registerMoveHasTwoEncodingsOfOneRecord : Obligations.RegisterMoveHasTwoEncodingsOfOneRecord := by
  intro p w a b
  refine ⟨fun heq => ?_, validEncoding_iff.mpr ⟨_, rfl, rfl, rfl⟩, validEncoding_iff.mpr ⟨_, rfl, rfl, rfl⟩⟩
  have hlead : rmLead p false w = rmLead p true w := (List.cons.inj heq).1
  have hflag := congrArg dFlag hlead
  rw [dFlag_rmLead, dFlag_rmLead] at hflag
  cases hflag

/-! ## A concatenation of valid encodings (R96 (b), R97) -/

/-- The ports of the next `n` requests: those listed, then `decode_all` (log entry 9). -/
def portsFor : List Port → Nat → List Port
  | _, 0 => []
  | q, n + 1 => q.headD .decodeAll :: portsFor q.tail n

theorem portsFor_length_self (q : List Port) : portsFor q q.length = q := by
  induction q with
  | nil => rfl
  | cons port rest ih => exact congrArg (port :: ·) ih

/-- The responses to the `n` requests for `n` records: each once, in order, on the port that asked. -/
def responsesFor (q : List Port) (l : List (List Byte × Record)) : List Response :=
  List.zipWith (fun port x => ⟨port, .ok x.2⟩) (portsFor q l.length) l

theorem responsesFor_cons (q : List Port) (x : List Byte × Record) (l : List (List Byte × Record)) :
    responsesFor q (x :: l) = ⟨q.headD .decodeAll, .ok x.2⟩ :: responsesFor q.tail l := rfl

/-- With no request listed every record goes out on `decode_all`. -/
theorem yielded_responsesFor_nil (l : List (List Byte × Record)) :
    yielded (responsesFor [] l) = l.map (fun x => .ok x.2) := by
  induction l with
  | nil => rfl
  | cons x l ih => exact congrArg (Result.ok x.2 :: ·) ih

/-- From the start of the first of N valid encodings, N steps give their records and end at the end of the stream. -/
theorem run_validEncodings {bs : List Byte} (l : List (List Byte × Record)) :
    ∀ s : State, s.stream = Memory.load bs → s.halted = false → s.cursor ≤ bs.length →
      (∀ x ∈ l, ValidEncoding s.params x.1 x.2) → bs.drop s.cursor = l.flatMap (fun x => x.1) →
      ∃ t, Sys2Proof.core.run l.length s = .next t ∧ t.responses = s.responses ++ responsesFor s.requests l ∧
        t.cursor = bs.length ∧ t.halted = false ∧ t.requests = s.requests.drop l.length := by
  induction l with
  | nil =>
    intro s _ hhalted hcursor _ hdrop
    have hend : bs.length ≤ s.cursor := List.drop_eq_nil_iff.mp hdrop
    exact ⟨s, run_zero s, (List.append_nil _).symm, by omega, hhalted, rfl⟩
  | cons x l ih =>
    intro s hstream hhalted hcursor hvalid hdrop
    obtain ⟨hx, hl⟩ := List.forall_mem_cons.mp hvalid
    obtain ⟨i, hwf, he, hr⟩ := validEncoding_iff.mp hx
    rw [List.flatMap_cons, he] at hdrop
    have hfetch : s.fetch = .ok i := State.fetch_load_ok hstream (decode_eq_ok_iff.mpr ⟨hwf, hdrop⟩)
    have hfits : s.cursor + i.length ≤ bs.length := by
      have hfits := State.fits_of_fetch_ok hfetch
      rwa [hstream] at hfits
    have hdrop' : bs.drop (s.cursor + i.length) = l.flatMap (fun x => x.1) := by
      rw [← List.drop_drop, hdrop, ← encode_length s.params i, List.drop_left]
    obtain ⟨t, hrun, hresp, hend, hhalted', hrequests⟩ :=
      ih (s.emit i.length (i.record s.params)) hstream hhalted hfits hl hdrop'
    refine ⟨t, ?_, ?_, hend, hhalted', ?_⟩
    · rw [List.length_cons, run_succ _ (step_of_fetch_ok (serves_of_fetch_ok hhalted hfetch) hfetch), hrun]
    · rw [hresp, responsesFor_cons, hr, State.emit_responses, State.emit_requests, List.append_assoc]
      rfl
    · rw [hrequests, State.emit_requests, List.drop_tail, List.length_cons]

/-- The run of N valid encodings from the start of a session. -/
theorem run_start_validEncodings {p : Params} {l : List (List Byte × Record)} (q : List Port)
    (hvalid : ∀ x ∈ l, ValidEncoding p x.1 x.2) :
    ∃ t, Sys2Proof.core.run l.length (State.start p (l.flatMap (fun x => x.1)) q) = .next t ∧
      t.responses = responsesFor q l ∧ t.cursor = t.stream.len ∧ t.halted = false ∧ t.requests = q.drop l.length := by
  obtain ⟨t, hrun, hresp, hend, hhalted, hrequests⟩ :=
    run_validEncodings l (State.start p (l.flatMap (fun x => x.1)) q) rfl rfl (Nat.zero_le _) hvalid rfl
  refine ⟨t, hrun, hresp, ?_, hhalted, hrequests⟩
  rw [hend, run_stream hrun]
  rfl

/-- Settles O43: as many requests are listed as there are encodings. -/
theorem mixedConsumersSplitTheInstructions : Obligations.MixedConsumersSplitTheInstructions := by
  intro p l q hvalid hlen
  obtain ⟨t, hrun, hresp, hend, -, hrequests⟩ := run_start_validEncodings q hvalid
  rw [responsesFor, ← hlen, portsFor_length_self] at hresp
  exact ⟨t, hrun, hresp, hend, by rw [hrequests, ← hlen, List.drop_length]⟩

/-! ## `decode_all` as a recursion (R95) -/

@[simp] theorem decodeAllFrom_nil (p : Params) (fuel c : Nat) : decodeAllFrom p fuel c [] = [] := by
  cases fuel <;> rfl

theorem ne_nil_of_decode {p : Params} {bs : List Byte} (h : decode p bs ≠ .truncated) : bs ≠ [] := by
  rintro rfl
  exact h rfl

theorem decodeAllFrom_ok {p : Params} {bs rest : List Byte} {i : Instr} (fuel c : Nat)
    (h : decode p bs = .ok i rest) :
    decodeAllFrom p (fuel + 1) c bs = .ok (i.record p) :: decodeAllFrom p fuel (c + i.length) rest := by
  rw [decodeAllFrom, if_neg (ne_nil_of_decode (p := p) (by simp [h])), h]

theorem decodeAllFrom_unrecognized {p : Params} {bs : List Byte} {b : Byte} (fuel c : Nat)
    (h : decode p bs = .unrecognized b) : decodeAllFrom p (fuel + 1) c bs = [.err (.unrecognizedOpcode c b)] := by
  rw [decodeAllFrom, if_neg (ne_nil_of_decode (p := p) (by simp [h])), h]

theorem decodeAllFrom_truncated {p : Params} {bs : List Byte} (fuel c : Nat) (hne : bs ≠ [])
    (h : decode p bs = .truncated) : decodeAllFrom p (fuel + 1) c bs = [.err (.truncatedInstruction c)] := by
  rw [decodeAllFrom, if_neg hne, h]

theorem decodeAllFrom_length_le (p : Params) (fuel : Nat) :
    ∀ (c : Nat) (bs : List Byte), (decodeAllFrom p fuel c bs).length ≤ fuel := by
  induction fuel with
  | zero => exact fun _ _ => Nat.le_refl 0
  | succ fuel ih =>
    intro c bs
    by_cases hne : bs = []
    · simp [hne]
    cases hdecode : decode p bs with
    | ok i rest =>
      rw [decodeAllFrom_ok fuel c hdecode]
      exact Nat.succ_le_succ (ih _ _)
    | truncated => simp [decodeAllFrom_truncated fuel c hne hdecode]
    | unrecognized b => simp [decodeAllFrom_unrecognized fuel c hdecode]

/-- A running traversal of the bytes `bs` by `decode_all` alone. -/
structure Traverses (p : Params) (bs : List Byte) (s : State) : Prop where
  params : s.params = p
  stream : s.stream = Memory.load bs
  requests : s.requests = []
  running : s.halted = false

theorem traverses_start (p : Params) (bs : List Byte) : Traverses p bs (State.start p bs []) := ⟨rfl, rfl, rfl, rfl⟩

theorem Traverses.port {p : Params} {bs : List Byte} {s : State} (h : Traverses p bs s) : s.port = .decodeAll :=
  State.port_of_requests_nil h.requests

theorem Traverses.serves_iff {p : Params} {bs : List Byte} {s : State} (h : Traverses p bs s) :
    Serves s ↔ bs.drop s.cursor ≠ [] := by
  rw [serves_decodeAll_iff h.port, h.running, h.stream, Memory.load_len, Ne, List.drop_eq_nil_iff, Nat.not_le]
  exact and_iff_right rfl

theorem Traverses.emit {p : Params} {bs : List Byte} {s : State} (h : Traverses p bs s) (n : Nat) (r : Record) :
    Traverses p bs (s.emit n r) :=
  ⟨h.params, h.stream, by simp [h.requests], h.running⟩

/-- An error ends the traversal: it goes out, and no later step does anything. -/
theorem Traverses.run_error {p : Params} {bs : List Byte} {s : State} {e : DecodeError} (h : Traverses p bs s)
    (hserves : Serves s) (hfetch : s.fetch = .error e) (k : Nat) :
    ∃ t, Sys2Proof.core.run (k + 1) s = .next t ∧ yielded t.responses = yielded s.responses ++ [.err e] ∧
      ¬ Serves t := by
  have hended : ¬ Serves (s.raise e) := by
    have hport : (s.raise e).port = .decodeAll := State.port_of_requests_nil (by simp [h.requests])
    simp [serves_decodeAll_iff hport, h.port]
  refine ⟨s.raise e, ?_, by simp [h.port], hended⟩
  rw [run_succ k (step_of_fetch_error hserves hfetch), run_of_ended (by simp [h.requests]) hended]

/-- Enough steps of a traversal yield what the recursion yields on the bytes left, and end `decode_all`: each
instruction takes at least two of the bytes left. -/
theorem Traverses.run {p : Params} {bs : List Byte} (fuel : Nat) :
    ∀ (k : Nat) (s : State), Traverses p bs s → (bs.length - s.cursor) / 2 + 1 ≤ fuel → fuel ≤ k →
      ∃ t, Sys2Proof.core.run k s = .next t ∧
        yielded t.responses = yielded s.responses ++ decodeAllFrom p fuel s.cursor (bs.drop s.cursor) ∧ ¬ Serves t := by
  induction fuel with
  | zero => exact fun _ _ _ hfuel _ => absurd hfuel (Nat.not_succ_le_zero _)
  | succ fuel ih =>
    intro k s h hfuel hk
    obtain ⟨k, rfl⟩ : ∃ k', k = k' + 1 := ⟨k - 1, by omega⟩
    by_cases hnil : bs.drop s.cursor = []
    · have hended : ¬ Serves s := fun hserves => h.serves_iff.mp hserves hnil
      exact ⟨s, run_of_ended h.requests hended _, by simp [hnil], hended⟩
    have hserves := h.serves_iff.mpr hnil
    cases hdecode : decode p (bs.drop s.cursor) with
    | ok i rest =>
      have hfetch : s.fetch = .ok i := State.fetch_load_ok h.stream (h.params.symm ▸ hdecode)
      have hfits : s.cursor + i.length ≤ bs.length := by
        have hfits := State.fits_of_fetch_ok hfetch
        rwa [h.stream] at hfits
      have hbounds := i.length_bounds
      have hrest : bs.drop (s.cursor + i.length) = rest := by
        rw [← List.drop_drop, (decode_eq_ok_iff.mp hdecode).2, ← encode_length p i, List.drop_left]
      obtain ⟨t, hrun, hyielded, hended⟩ :=
        ih k (s.emit i.length (i.record s.params)) (h.emit _ _) (by rw [State.emit_cursor]; omega) (by omega)
      refine ⟨t, by rw [run_succ k (step_of_fetch_ok hserves hfetch), hrun], ?_, hended⟩
      rw [hyielded, decodeAllFrom_ok fuel _ hdecode, State.emit_cursor, hrest]
      simp [h.port, h.params]
    | truncated =>
      rw [decodeAllFrom_truncated fuel _ hnil hdecode]
      exact h.run_error hserves (State.fetch_load_truncated h.stream (h.params.symm ▸ hdecode)) k
    | unrecognized b =>
      rw [decodeAllFrom_unrecognized fuel _ hdecode]
      exact h.run_error hserves (State.fetch_load_unrecognized h.stream (h.params.symm ▸ hdecode)) k

/-! ## The final conditions (R96, R99) -/

/-- Where a long enough run from the start ends: with the recursion's sequence, the invariant, and `decode_all`
ended. -/
theorem run_start_ends (p : Params) (bs : List Byte) (k : Nat) (hk : bs.length / 2 + 1 ≤ k) :
    ∃ t, Sys2Proof.core.run k (State.start p bs []) = .next t ∧ yielded t.responses = decodeAll p bs ∧ Inv t ∧
      (t.halted = true ∨ t.halted = false ∧ t.cursor = t.stream.len) := by
  obtain ⟨t, hrun, hyielded, hended⟩ := (traverses_start p bs).run (bs.length / 2 + 1) k _ (Nat.le_refl _) hk
  have hinv : Inv t := run_inv (inv_start p bs []) hrun
  refine ⟨t, hrun, hyielded, hinv, ?_⟩
  rcases Bool.eq_false_or_eq_true t.halted with hhalted | hhalted
  · exact .inl hhalted
  · have hcursor := hinv.cursor
    have hend : ¬ t.cursor < t.stream.len := fun hlt => hended (serves_of_running hhalted hlt)
    exact .inr ⟨hhalted, by omega⟩

/-- Settles O42. -/
theorem runYieldsTheRecursionOfDecodeAll : Obligations.RunYieldsTheRecursionOfDecodeAll := by
  intro p bs k hk
  obtain ⟨t, hrun, hyielded, -, -⟩ := run_start_ends p bs k hk
  exact ⟨t, hrun, hyielded⟩

/-- In a stopped session the last element is an error whose offset is the cursor (R99). -/
theorem Inv.last_of_stopped {t : State} (hinv : Inv t) (hhalted : t.halted = true) :
    ∃ e, (yielded t.responses).getLast? = some (.err e) ∧ e.offset = t.cursor := by
  obtain ⟨-, e, hfetch, hlast⟩ := hinv.stopped hhalted
  exact ⟨e, hlast, State.offset_of_fetch_error hfetch⟩

/-- Settles O41: the run has ended, the invariant says how, and the recursion bounds the sequence. -/
theorem everyRunReachesAFinalCondition : Obligations.EveryRunReachesAFinalCondition := by
  intro p bs k hk
  obtain ⟨t, hrun, hyielded, hinv, hfinal⟩ := run_start_ends p bs k hk
  refine ⟨t, hrun, ?_, hinv.shape, ?_⟩
  · rcases hfinal with hhalted | hcomplete
    · exact .inr ⟨hhalted, hinv.last_of_stopped hhalted⟩
    · exact .inl hcomplete
  · rw [hyielded]
    exact decodeAllFrom_length_le ..

/-- A session has yielded an error exactly when it is stopped. -/
theorem Inv.halted_eq_false_iff {t : State} (hinv : Inv t) :
    t.halted = false ↔ ∀ r ∈ yielded t.responses, r.isOk = true := by
  refine ⟨hinv.running, fun hall => ?_⟩
  rw [← Bool.not_eq_true]
  intro hhalted
  obtain ⟨e, hlast, -⟩ := hinv.last_of_stopped hhalted
  have hok := hall _ (List.mem_of_getLast? hlast)
  cases hok

theorem run_start_nil (p : Params) (k : Nat) :
    Sys2Proof.core.run k (State.start p [] []) = .next (State.start p [] []) := by
  refine run_of_ended rfl ?_ k
  rw [(traverses_start p []).serves_iff]
  simp

/-- On one byte the recursion yields its one error. -/
theorem decodeAll_singleton (p : Params) (b : Byte) :
    decodeAll p [b] = if opcode6 b = p.opcRM6 ∨ opcode4 b = p.opcIMM4 then [.err (.truncatedInstruction 0)]
      else [.err (.unrecognizedOpcode 0 b)] := by
  rw [decodeAll, List.length_singleton]
  split
  · next hpattern => exact decodeAllFrom_truncated 0 0 (List.cons_ne_nil b []) (decode_singleton hpattern)
  · next hno =>
    rw [not_or] at hno
    exact decodeAllFrom_unrecognized 0 0 (decode_none hno.1 hno.2 [])

/-- R96 (c): the only element is an error at offset 0, which is the cursor. -/
theorem run_start_singleton (p : Params) (b : Byte) (k : Nat) (hk : 1 ≤ k) :
    ∃ t, Sys2Proof.core.run k (State.start p [b] []) = .next t ∧ t.cursor = 0 ∧
      yielded t.responses = decodeAll p [b] := by
  obtain ⟨t, hrun, hyielded, hinv, hfinal⟩ := run_start_ends p [b] k (by simpa using hk)
  refine ⟨t, hrun, ?_, hyielded⟩
  have hhalted : t.halted = true := by
    rw [← Bool.not_eq_false, hinv.halted_eq_false_iff, hyielded, decodeAll_singleton]
    split <;> simp [Result.isOk]
  have hlt := (hinv.stopped hhalted).1
  rw [run_stream hrun] at hlt
  exact Nat.lt_one_iff.mp hlt

/-- R96 (d): a run that has ended is at the end of the stream exactly when it yielded no error. -/
theorem run_start_cursor_iff (p : Params) (bs : List Byte) (k : Nat) (hk : bs.length / 2 + 1 ≤ k) :
    ∃ t, Sys2Proof.core.run k (State.start p bs []) = .next t ∧
      (t.cursor = t.stream.len ↔ ∀ r ∈ yielded t.responses, r.isOk = true) := by
  obtain ⟨t, hrun, -, hinv, hfinal⟩ := run_start_ends p bs k hk
  refine ⟨t, hrun, ?_⟩
  rw [← hinv.halted_eq_false_iff]
  rcases hfinal with hhalted | ⟨hhalted, hend⟩
  · have hlt := (hinv.stopped hhalted).1
    exact iff_of_false (by omega) (by simp [hhalted])
  · exact iff_of_true hend hhalted

/-- Settles O40, part by part. -/
theorem guaranteedOutcomesOfDecodeAll : Obligations.GuaranteedOutcomesOfDecodeAll := by
  refine ⟨run_start_nil, fun p l hvalid => ?_, fun p b k hk => ?_, run_start_cursor_iff⟩
  · obtain ⟨t, hrun, hresp, hend, hhalted, -⟩ := run_start_validEncodings [] hvalid
    exact ⟨t, hrun, by rw [hresp, yielded_responsesFor_nil], hend, hhalted⟩
  · obtain ⟨t, hrun, hcursor, hyielded⟩ := run_start_singleton p b k hk
    exact ⟨t, hrun, hcursor, hyielded.trans (decodeAll_singleton p b)⟩

end Sys2Proof.Machine

/-! PROOFS of the statements about the stream as data and about two-byte fields (10_state.md, 20_memory.md). -/

namespace Sys2Proof.Machine

/-- Settles O45: both reads are present or one is beyond the stream. -/
theorem twoByteFieldsAreLittleEndian : Obligations.TwoByteFieldsAreLittleEndian := by
  intro m a
  refine ⟨fun lo hi hlo hhi => ⟨le16 lo hi, by rw [Memory.read16, hlo, hhi], le16_toNat lo hi⟩, fun hend => ?_⟩
  rw [Memory.read16, Memory.read_of_ge hend]
  cases m.read a <;> rfl

/-! ## The canonical form is canonical -/

theorem Memory.cellsWf_cons {len lo a : Nat} {b : Byte} {rest : List Host.Cell}
    (h : Memory.cellsWf len lo ((a, b) :: rest) = true) :
    lo ≤ a ∧ a < len ∧ b ≠ Memory.unlisted ∧ Memory.cellsWf len (a + 1) rest = true := by
  simp only [Memory.cellsWf, Bool.and_eq_true, decide_eq_true_eq, bne_iff_ne] at h
  obtain ⟨⟨⟨hlo, hlt⟩, hb⟩, hrest⟩ := h
  exact ⟨hlo, hlt, hb, hrest⟩

/-- A canonical list holds nothing below its offset. -/
theorem Memory.lookup_below {len : Nat} (cells : List Host.Cell) :
    ∀ lo j, Memory.cellsWf len lo cells = true → j < lo → Memory.lookup cells j = Memory.unlisted := by
  induction cells with
  | nil => exact fun _ _ _ _ => rfl
  | cons cell rest ih =>
    intro lo j hwf hj
    obtain ⟨hlo, -, -, hrest⟩ := Memory.cellsWf_cons hwf
    rw [Memory.lookup, if_neg (by omega)]
    exact ih _ j hrest (by omega)

/-- A canonical list holds nothing at or above the length. -/
theorem Memory.lookup_beyond {len : Nat} (cells : List Host.Cell) :
    ∀ lo j, Memory.cellsWf len lo cells = true → len ≤ j → Memory.lookup cells j = Memory.unlisted := by
  induction cells with
  | nil => exact fun _ _ _ _ => rfl
  | cons cell rest ih =>
    intro lo j hwf hj
    obtain ⟨-, hlt, -, hrest⟩ := Memory.cellsWf_cons hwf
    rw [Memory.lookup, if_neg (by omega)]
    exact ih _ j hrest hj

theorem Memory.lookup_cons_self (a : Nat) (b : Byte) (rest : List Host.Cell) :
    Memory.lookup ((a, b) :: rest) a = b := if_pos rfl

theorem Memory.lookup_cons_of_ne {a j : Nat} (b : Byte) (rest : List Host.Cell) (h : a ≠ j) :
    Memory.lookup ((a, b) :: rest) j = Memory.lookup rest j := if_neg h

/-- The first cell of a canonical list stands in every canonical list that holds the same, and not above its first. -/
theorem Memory.head_le_of_lookup_eq {len lo lo' a a' : Nat} {b b' : Byte} {rest rest' : List Host.Cell}
    (hwf : Memory.cellsWf len lo ((a, b) :: rest) = true) (hwf' : Memory.cellsWf len lo' ((a', b') :: rest') = true)
    (heq : ∀ j, Memory.lookup ((a, b) :: rest) j = Memory.lookup ((a', b') :: rest') j) : a' ≤ a := by
  obtain ⟨-, -, hb, -⟩ := Memory.cellsWf_cons hwf
  obtain ⟨-, -, -, hrest'⟩ := Memory.cellsWf_cons hwf'
  by_contra hlt
  apply hb
  rw [← Memory.lookup_cons_self a b rest, heq a, Memory.lookup_cons_of_ne b' rest' (by omega),
    Memory.lookup_below rest' _ a hrest' (by omega)]

/-- Two canonical lists that hold the same are equal: they list the same offset first, and their rests hold the same. -/
theorem Memory.cells_eq_of_lookup_eq {len : Nat} (cells : List Host.Cell) :
    ∀ (lo : Nat) (cells' : List Host.Cell), Memory.cellsWf len lo cells = true → Memory.cellsWf len lo cells' = true →
      (∀ j, Memory.lookup cells j = Memory.lookup cells' j) → cells = cells' := by
  induction cells with
  | nil =>
    intro lo cells' _ hwf' heq
    cases cells' with
    | nil => rfl
    | cons cell' rest' =>
      obtain ⟨-, -, hb', -⟩ := Memory.cellsWf_cons hwf'
      exact absurd ((heq cell'.1).trans (Memory.lookup_cons_self ..)).symm hb'
  | cons cell rest ih =>
    intro lo cells' hwf hwf' heq
    cases cells' with
    | nil =>
      obtain ⟨-, -, hb, -⟩ := Memory.cellsWf_cons hwf
      exact absurd ((Memory.lookup_cons_self ..).symm.trans (heq cell.1)) hb
    | cons cell' rest' =>
      obtain ⟨a, b⟩ := cell
      obtain ⟨a', b'⟩ := cell'
      obtain rfl : a = a' := Nat.le_antisymm (Memory.head_le_of_lookup_eq hwf' hwf fun j => (heq j).symm)
        (Memory.head_le_of_lookup_eq hwf hwf' heq)
      have hb : b = b' := by
        rw [← Memory.lookup_cons_self a b rest, heq, Memory.lookup_cons_self]
      obtain ⟨-, -, -, hrest⟩ := Memory.cellsWf_cons hwf
      obtain ⟨-, -, -, hrest'⟩ := Memory.cellsWf_cons hwf'
      have hrests : rest = rest' := by
        refine ih (a + 1) rest' hrest hrest' fun j => ?_
        by_cases hj : a = j
        · rw [Memory.lookup_below rest _ j hrest (by omega), Memory.lookup_below rest' _ j hrest' (by omega)]
        · rw [← Memory.lookup_cons_of_ne b rest hj, heq, Memory.lookup_cons_of_ne b' rest' hj]
      rw [hb, hrests]

/-- The length of a stream is told by which reads answer a byte. -/
theorem Memory.len_eq_of_read_eq {m m' : Memory} (h : ∀ a, m.read a = m'.read a) : m.len = m'.len := by
  have hlt (a : Nat) : a < m.len ↔ a < m'.len := by rw [← Memory.read_isSome_iff, h, Memory.read_isSome_iff]
  have h1 := hlt m.len
  have h2 := hlt m'.len
  omega

/-- Settles O44: the reads tell the length, and below it the lookups; beyond it canonical lists hold nothing. -/
theorem equalReadsAreEqualStreams : Obligations.EqualReadsAreEqualStreams := by
  intro m m' hwf hwf' heq
  obtain ⟨len, cells⟩ := m
  obtain ⟨len', cells'⟩ := m'
  obtain rfl : len = len' := Memory.len_eq_of_read_eq heq
  have hlookup : ∀ j, Memory.lookup cells j = Memory.lookup cells' j := by
    intro j
    by_cases hj : j < len
    · have hread := heq j
      rw [Memory.read_of_lt hj, Memory.read_of_lt hj] at hread
      exact Option.some.inj hread
    · have hend : len ≤ j := by omega
      rw [Memory.lookup_beyond cells 0 j hwf hend, Memory.lookup_beyond cells' 0 j hwf' hend]
  rw [Memory.cells_eq_of_lookup_eq cells 0 cells' hwf hwf' hlookup]

end Sys2Proof.Machine

/-! PROOFS of the further statements about the formatter (44_formatter.md, 00_scope.md R7, 40_operand_tables.md R66). -/

namespace Sys2Proof.Machine

/-! ## Integers (R7) -/

theorem decInt_of_nonneg {v : Int} (h : 0 ≤ v) : decInt v = decNat v.natAbs := if_neg (by omega)

theorem decInt_of_neg {v : Int} (h : v < 0) : decInt v = '-' :: decNat v.natAbs := if_pos h

/-- Settles O51. -/
theorem decimalNumeralsReadBack : Obligations.DecimalNumeralsReadBack := by
  refine ⟨fun n => ⟨decNat_isNumber n, numeralValue_decNat n⟩, fun n => ?_, fun n => ?_⟩
  · rw [decInt_of_nonneg (by omega), Int.natAbs_natCast]
  · rw [decInt_of_neg (by omega), Int.natAbs_neg]
    rfl

theorem decInt_isSignedNumber (v : Int) : IsSignedNumber (decInt v) := by
  rcases Int.lt_or_le v 0 with hneg | hnonneg
  · exact .inr ⟨decNat v.natAbs, decNat_isNumber _, decInt_of_neg hneg⟩
  · rw [decInt_of_nonneg hnonneg]
    exact .inl (decNat_isNumber _)

/-! ## Displacement terms (R108, R109) -/

theorem signedTerm_eq (style : NegDispStyle) (v : Int) : signedTerm style v =
    if v < 0 ∧ style = .minusMagnitude then [' ', '-', ' '] ++ decInt (-v) else [' ', '+', ' '] ++ decInt v := by
  by_cases hv : v < 0
  · cases style <;> simp [signedTerm, hv]
  · simp [signedTerm, hv]

theorem signedTerm_ne_nil (style : NegDispStyle) (v : Int) : signedTerm style v ≠ [] := by
  rw [signedTerm_eq]
  split <;> simp

/-- Under `plus_signed` a term is a plus and a signed numeral. -/
theorem signedTerm_isDispPart (v : Int) : IsDispPart (signedTerm .plusSigned v) := by
  rw [signedTerm_eq, if_neg (by simp)]
  exact .inr ⟨decInt v, decInt_isSignedNumber v, rfl⟩

theorem shownDisp_disp16 (p : Params) (d : Word) :
    shownDisp p .disp16 d = if p.disp16Text = .signed then d.toInt else d.toNat := by
  cases h : p.disp16Text <;> simp [shownDisp, h, signed16]

/-- Settles O48: the four kinds, with the term's sign and style as the parameters say. -/
theorem memoryOperandText : Obligations.MemoryOperandText := by
  intro p b x d ix term
  have hix : indexTerm x = ix := by cases x <;> rfl
  have hterm (v : Int) : signedTerm p.negDispStyle v = term v := signedTerm_eq ..
  refine ⟨?_, ?_, ?_, rfl⟩
  · simp [fmtOperand, fmtMem, baseText, nameText, dispTerm, hix]
  · simp [fmtOperand, fmtMem, baseText, nameText, dispTerm, hix, hterm, shownDisp, signed16]
  · simp [fmtOperand, fmtMem, baseText, nameText, dispTerm, hix, hterm, shownDisp_disp16]

/-- Settles O49: the two texts differ by a term, which is never empty. -/
theorem explicitDisplacementTextIsNeverTheNoDisplacementText :
    Obligations.ExplicitDisplacementTextIsNeverTheNoDisplacementText := by
  intro p b x d d'
  constructor
  · simpa [fmtOperand, fmtMem, dispTerm] using signedTerm_ne_nil p.negDispStyle (shownDisp p .disp8 d)
  · simpa [fmtOperand, fmtMem, dispTerm] using signedTerm_ne_nil p.negDispStyle (shownDisp p .disp16 d)

theorem toInt_eq_toNat_of_toInt_nonneg {d : Word} (h : 0 ≤ d.toInt) : d.toInt = d.toNat := by
  have hcond := BitVec.toInt_eq_toNat_cond d
  have hlt := d.isLt
  split at hcond <;> omega

/-- A non-negative displacement reads the same signed and unsigned, so both kinds show the same integer. -/
theorem shownDisp_disp16_eq_disp8 {p : Params} {d : Word} (h : p.disp16Text = .signed ∨ 0 ≤ d.toInt) :
    shownDisp p .disp16 d = shownDisp p .disp8 d := by
  rw [shownDisp_disp16]
  rcases h with hsigned | hnonneg
  · rw [if_pos hsigned]
    rfl
  · rw [← toInt_eq_toNat_of_toInt_nonneg hnonneg, ite_self]
    rfl

/-- Settles O50: the sign extension keeps the signed value, and the kinds differ. -/
theorem displacementKindsOfOneValuePrintAlike : Obligations.DisplacementKindsOfOneValuePrintAlike := by
  intro p b x d r h
  have hshown : shownDisp p .disp16 (sext16 d) = shownDisp p .disp8 (sext16 d) := by
    apply shownDisp_disp16_eq_disp8
    rwa [← signed16, signed16_sext16]
  rw [sext16] at hshown
  exact ⟨by simp [formatRecord_eq, fmtOperand, fmtMem, dispTerm, hshown], by simp⟩

/-! ## The grammar of a line (R113) -/

theorem indexTerm_isIndexPart (p : Params) (rm : Slot) : IsIndexPart p (indexTerm (p.ea rm).index) := by
  cases h : (p.ea rm).index with
  | none => exact .inl rfl
  | some n => exact .inr ⟨rm, n, h, rfl⟩

theorem isDispPart_nil : IsDispPart [] := .inl rfl

/-- The text around a base and index of the table is a memory text when the term is in the grammar. -/
theorem isMemoryText_of_eaPair {p : Params} {base index : Option RegName} {term : Text} (h : EAPair p base index)
    (hterm : IsDispPart term) : IsMemoryText p (['['] ++ baseText base ++ indexTerm index ++ term ++ [']']) := by
  obtain ⟨rm, rfl, rfl⟩ := h
  exact .inl ⟨_, _, term, ⟨rm, rfl⟩, indexTerm_isIndexPart p rm, hterm, rfl⟩

/-- A producible memory operand prints as a memory text, in each of its four kinds. -/
theorem fmtMem_isMemoryText {p : Params} {base index : Option RegName} {kind : DispKind} {disp : Word}
    (hstyle : p.negDispStyle = .plusSigned) (h : MemWf p base index kind disp) :
    IsMemoryText p (fmtMem p base index kind disp) := by
  have hterm (v : Int) : IsDispPart (signedTerm p.negDispStyle v) := hstyle ▸ signedTerm_isDispPart v
  cases kind with
  | nodisp => exact isMemoryText_of_eaPair h.1 isDispPart_nil
  | disp8 => exact isMemoryText_of_eaPair h.1 (hterm _)
  | disp16 => exact isMemoryText_of_eaPair h (hterm _)
  | direct =>
    obtain ⟨-, -, hdirect⟩ := h
    exact .inr ⟨hdirect, decNat disp.toNat, decNat_isNumber _, rfl⟩

theorem reg_isOperandText (p : Params) (slot : Slot) (w : Width) : IsOperandText p (fmtOperand p (.reg slot w)) :=
  .inl ⟨slot, w, rfl⟩

theorem mem_isOperandText {p : Params} {base index : Option RegName} {kind : DispKind} {disp : Word}
    (hstyle : p.negDispStyle = .plusSigned) (h : MemWf p base index kind disp) :
    IsOperandText p (fmtOperand p (.mem base index kind disp)) :=
  .inr (.inl (fmtMem_isMemoryText hstyle h))

theorem imm_isOperandText (p : Params) (v : Word) (w : Width) : IsOperandText p (fmtOperand p (.imm v w)) :=
  .inr (.inr (decNat_isNumber v.toNat))

/-- A producible record's two operands print in the grammar, in each of its four shapes (R19). -/
theorem operands_areOperandTexts {p : Params} {r : Record} (hstyle : p.negDispStyle = .plusSigned) (h : r.wf p) :
    IsOperandText p (fmtOperand p r.dest) ∧ IsOperandText p (fmtOperand p r.src) := by
  obtain ⟨op, dest, src⟩ := r
  cases dest with
  | reg slot w =>
    refine ⟨reg_isOperandText p slot w, ?_⟩
    cases src with
    | reg slot' w' => exact reg_isOperandText p slot' w'
    | mem base index kind disp => exact mem_isOperandText hstyle h
    | imm v w' => exact imm_isOperandText p v w'
  | mem base index kind disp =>
    cases src with
    | reg slot w => exact ⟨mem_isOperandText hstyle h, reg_isOperandText p slot w⟩
    | mem _ _ _ _ => exact absurd h id
    | imm _ _ => exact absurd h id
  | imm _ _ => exact absurd h id

/-- Settles O52: the line is the mnemonic and the two operands' texts. -/
theorem everyLineIsInTheSyntax : Obligations.EveryLineIsInTheSyntax := by
  intro p r hstyle hwf
  obtain ⟨hdest, hsrc⟩ := operands_areOperandTexts hstyle hwf
  exact ⟨_, _, hdest, hsrc, formatRecord_eq p r⟩

/-- Settles O53: five closed texts. -/
theorem workedTextsUnderTheDefaults : Obligations.WorkedTextsUnderTheDefaults := by
  unfold Obligations.WorkedTextsUnderTheDefaults
  decide

/-! ## The described address (R66) -/

/-- The sum of 16-bit words as a number (R66). -/
theorem toNat_sum_three (u v w : Word) : ((u + v + w).toNat : Int) = (u.toNat + v.toNat + w.toNat) % 65536 := by
  rw [BitVec.toNat_add, BitVec.toNat_add]
  omega

/-- Settles O54: the address is a sum of 16-bit words, and the two readings of a word agree modulo 2^16. -/
theorem bothReadingsDescribeOneAddress : Obligations.BothReadingsDescribeOneAddress := by
  intro value b x d
  have hunsigned := toNat_sum_three (value b) ((x.map value).getD 0) d
  refine ⟨value b + (x.map value).getD 0 + d, rfl, ?_, hunsigned⟩
  have hreading := BitVec.toInt_eq_toNat_cond d
  rw [hunsigned, hreading]
  split <;> omega

end Sys2Proof.Machine
